-- ==== Sys2Proof/Word.lean ====
section
/-! DEFINITION. The words of GOSTCORE: 32-bit words, bytes, nibbles, 8-byte blocks and 32-byte keys
(spec/00_scope.md R6, R8, R9, R10). Every value is unsigned; `+`, `^^^`, `|||`, `<<<` and `>>>` on `BitVec 32` are R9's
operators (addition modulo 2^32, logical shifts that fill with zero). -/

namespace Sys2Proof

/-- A 32-bit word (R6). -/
abbrev Word := BitVec 32

/-- A byte (R10). -/
abbrev Byte := BitVec 8

/-- A 4-bit value: a nibble of a word, an entry of the substitution table (R8, R21). -/
abbrev Nibble := BitVec 4

/-- A block: exactly 8 bytes (R6). -/
abbrev Block := Vector Byte 8

/-- A key the block has accepted: exactly 32 bytes (R6; 90_conflicts.md C7). -/
abbrev Key := Vector Byte 32

end Sys2Proof
end

