-- ==== Sys2Proof/Config.lean ====
section
/-! DEFINITION. The configuration of one GOSTCORE instance (spec/00_scope.md R7, 10_state.md R20 to R22).
The spec says a model takes the configuration as an argument of its step; here a state carries it in a field that nothing
writes (log 1). The substitution table and MAX_MSG_BYTES of the instance that `State.reset` describes are uninterpreted
constants (log 2): every legal instance is one of their values. -/

namespace Sys2Proof

/-- `UNPAD_MODE` (R7). -/
inductive UnpadMode where
  /-- The default: the hardened padding check of R121. -/
  | strict
  /-- The reference behaviour where it is defined: R122. -/
  | permissive
deriving DecidableEq, Repr

/-- `SBOX`: 8 rows of 16 entries of 4 bits (R21). -/
abbrev SboxTable := Vector (Vector Nibble 16) 8

/-- The invariant of R21, as a check: no row holds an entry twice, so each row is a permutation of 0..15. -/
def sboxLegal (t : SboxTable) : Bool := t.toList.all fun row => decide row.toList.Nodup

/-- The constraint of R131 on `MAX_MSG_BYTES`: unbounded (`none`), or a multiple of 8 that is at least 16. -/
def maxMsgLegal : Option Nat → Bool
  | none => true
  | some m => decide (m % 8 = 0) && decide (16 ≤ m)

/-- The configuration parameters a rule reads. A table that is not made of permutations is not a GOSTCORE (R22), and a
capacity R131 does not allow is none either: neither can be built. -/
structure Config where
  /-- `SBOX`. -/
  sbox : SboxTable
  /-- `UNPAD_MODE`. -/
  unpadMode : UnpadMode
  /-- `MAX_MSG_BYTES`; `none` is unbounded. -/
  maxMsgBytes : Option Nat
  /-- Each row of `sbox` is a permutation (R21). -/
  sbox_legal : sboxLegal sbox = true
  /-- The capacity is one R131 allows. -/
  maxMsg_legal : maxMsgLegal maxMsgBytes = true
deriving DecidableEq, Repr

/-- The configuration string of R3: a label of the spec's own that no register shows. -/
def Config.label (c : Config) : String :=
  match c.unpadMode with
  | .strict => "GOSTCORE-v7-STRICT"
  | .permissive => "GOSTCORE-v7-PERMISSIVE"

/-- The permutation in each row of the built instance's table: uninterpreted (R21, 91_not_in_source.md N1; log 2). -/
opaque Config.builtRow : Fin 8 → Equiv.Perm (Fin 16)

/-- The built instance's capacity, in 8-byte blocks beyond the two that R131 requires: uninterpreted (R131; log 2). -/
opaque Config.builtExtraBlocks : Option Nat

/-- `LATENCY` less one, for a command word, W0, W1, W2, KEY and DATA: uninterpreted (70_reset_and_hazards.md R175). R176 lets an
implementation make it depend on the key or the data, so it takes both. DESIGN CHOICE: it depends on these alone (log 11). -/
opaque Config.latencyLessOne : Word → Word → Word → Word → List Byte → List Byte → Nat

/-- `LATENCY`: a positive count of time units for a command word and the inputs it is issued with (R7, R175, R176). No rule reads
it. -/
def Config.latency (cmd w0 w1 w2 : Word) (key data : List Byte) : Nat := Config.latencyLessOne cmd w0 w1 w2 key data + 1

/-- The built instance's table, entry by entry. -/
def Config.builtSbox : SboxTable :=
  Vector.ofFn fun i => Vector.ofFn fun x => BitVec.ofFin (Config.builtRow i x)

/-- The built instance's `MAX_MSG_BYTES`. -/
def Config.builtMaxMsg : Option Nat := Config.builtExtraBlocks.map fun k => 8 * (k + 2)

theorem Config.builtSbox_legal : sboxLegal Config.builtSbox = true := by
  simp only [sboxLegal, Config.builtSbox, List.all_eq_true, decide_eq_true_eq]
  intro row hrow
  rw [Vector.mem_toList_iff, Vector.mem_ofFn] at hrow
  obtain ⟨i, rfl⟩ := hrow
  rw [Vector.toList_ofFn, List.nodup_ofFn]
  intro x y h
  simpa using h

theorem Config.builtMaxMsg_legal : maxMsgLegal Config.builtMaxMsg = true := by
  unfold Config.builtMaxMsg
  cases Config.builtExtraBlocks with
  | none => rfl
  | some k => simp only [Option.map_some, maxMsgLegal, Bool.and_eq_true, decide_eq_true_eq]; omega

/-- The configuration of the instance `State.reset` describes: its table and capacity uninterpreted, its `UNPAD_MODE` the
default that R7 states. -/
def Config.built : Config where
  sbox := Config.builtSbox
  unpadMode := .strict
  maxMsgBytes := Config.builtMaxMsg
  sbox_legal := Config.builtSbox_legal
  maxMsg_legal := Config.builtMaxMsg_legal

end Sys2Proof
end

