-- ==== Sys2Proof/Syntax.lean ====
section
/-! DEFINITION. The nine commands of GOSTCORE (spec/30_encoding.md R61, spec/opcode_table.json), one constructor a row. -/

namespace Sys2Proof

/-- A command. Every operand but ROTL's amount comes from an input register or buffer (R63). -/
inductive Instr where
  /-- SUBST, OP 0x1 (R82). -/
  | subst
  /-- ROTL #sh, OP 0x2 (R84); `sh` is the 5-bit field SH (R62), so an amount outside [0, 32) cannot be written. -/
  | rotl (sh : BitVec 5)
  /-- ROUND, OP 0x3 (R86). -/
  | round
  /-- ENC_BLOCK, OP 0x4 (R106). -/
  | encBlock
  /-- DEC_BLOCK, OP 0x5 (R107). -/
  | decBlock
  /-- PAD, OP 0x6 (R125). -/
  | pad
  /-- UNPAD, OP 0x7 (R126). -/
  | unpad
  /-- ENC_MSG, OP 0x8 (R127). -/
  | encMsg
  /-- DEC_MSG, OP 0x9 (R128). -/
  | decMsg
deriving DecidableEq, Repr

end Sys2Proof
end

