-- ==== Sys2Proof/WellFormed.lean ====
section
/-! DEFINITION. Well-formedness. A command has one operand of its own, ROTL's 5-bit amount, and the type of that field is the
whole of its check (spec/30_encoding.md R62), so no term of `Instr` is ill-formed. What can be ill-formed is a command WORD:
R64's three conditions stand here as checks, written apart from the decoder. -/

namespace Sys2Proof

/-- The field OP of a command word, bits [3:0] (R60). -/
def opField (w : Word) : BitVec 4 := w.extractLsb' 0 4

/-- The field SH of a command word, bits [8:4] (R60). -/
def shField (w : Word) : BitVec 5 := w.extractLsb' 4 5

/-- The field RSV of a command word, bits [31:9] (R60). -/
def rsvField (w : Word) : BitVec 23 := w.extractLsb' 9 23

/-- R64, first condition negated: RSV is 0. -/
def rsvClear (w : Word) : Bool := rsvField w == 0#23

/-- R64, second condition negated: OP is neither 0x0 nor one of 0xA..0xF. -/
def opAssigned (w : Word) : Bool := decide (1 ≤ (opField w).toNat) && decide ((opField w).toNat ≤ 9)

/-- R64, third condition negated: SH is 0 unless OP is 0x2. -/
def shAllowed (w : Word) : Bool := opField w == 0x2#4 || shField w == 0#5

/-- A legal command word (R64): none of the three conditions holds. -/
def legalWord (w : Word) : Bool := rsvClear w && opAssigned w && shAllowed w

/-- Well-formedness of a command, constructor by constructor: the fields' types leave nothing to check. -/
def Instr.wellFormed : Instr → Bool
  | .subst => true
  | .rotl sh => decide (sh.toNat < 32)
  | .round => true
  | .encBlock => true
  | .decBlock => true
  | .pad => true
  | .unpad => true
  | .encMsg => true
  | .decMsg => true

end Sys2Proof
end

