-- ==== Sys2Proof/Decode.lean ====
section
/-! DEFINITION. Decoding, total on all 32-bit words and rejecting by name, and encoding (spec/30_encoding.md R60, R61, R64 to
R66). The block decodes a word, never bytes: a command is exactly one 32-bit word written to CMD (R66), so there is no byte
order of instructions (20_memory.md R43). -/

namespace Sys2Proof

/-- Why a word is illegal: R64's three conditions. The spec's decoder answers only "Illegal"; the names are the model's
(log 13). -/
inductive IllegalWord where
  /-- RSV is not 0. -/
  | reservedBits
  /-- OP is 0x0 or one of 0xA..0xF. -/
  | reservedOpcode
  /-- SH is not 0 on a command other than ROTL. -/
  | shiftOffRotl
deriving DecidableEq, Repr

/-- The commands whose word has SH = 0, by OP (the list in R65's pseudocode). -/
def plainCommand (op : BitVec 4) : Option Instr :=
  match op.toNat with
  | 0x1 => some .subst
  | 0x3 => some .round
  | 0x4 => some .encBlock
  | 0x5 => some .decBlock
  | 0x6 => some .pad
  | 0x7 => some .unpad
  | 0x8 => some .encMsg
  | 0x9 => some .decMsg
  | _ => none

/-- R65: `decode(cmd)`. -/
def decode (w : Word) : Except IllegalWord Instr :=
  if rsvField w ≠ 0#23 then .error .reservedBits
  else if opField w = 0x2#4 then .ok (.rotl (shField w))
  else
    match plainCommand (opField w) with
    | some i => if shField w ≠ 0#5 then .error .shiftOffRotl else .ok i
    | none => .error .reservedOpcode

/-- The decoder on a row of spec/opcode_table.json: `w` is the row's word, bit 0 its least significant bit, and every row has
32 bits. A word that is longer than a command is none. -/
def decodeTableWord (nbits w : Nat) : Option Instr :=
  if nbits ≤ 32 ∧ w < 2 ^ 32 then
    match decode (BitVec.ofNat 32 (w % 2 ^ nbits)) with
    | .ok i => some i
    | .error _ => none
  else none

/-- The OP of a command (R61). -/
def opcode : Instr → BitVec 4
  | .subst => 0x1#4
  | .rotl _ => 0x2#4
  | .round => 0x3#4
  | .encBlock => 0x4#4
  | .decBlock => 0x5#4
  | .pad => 0x6#4
  | .unpad => 0x7#4
  | .encMsg => 0x8#4
  | .decMsg => 0x9#4

/-- The SH of a command: ROTL's amount, 0 on every other (R60, R62). -/
def shiftAmount : Instr → BitVec 5
  | .subst => 0#5
  | .rotl sh => sh
  | .round => 0#5
  | .encBlock => 0#5
  | .decBlock => 0#5
  | .pad => 0#5
  | .unpad => 0#5
  | .encMsg => 0#5
  | .decMsg => 0#5

/-- The word of a command, R60's diagram `RSV | SH | OP` with RSV = 0. -/
def encode (i : Instr) : Word := (0#23 ++ shiftAmount i ++ opcode i : BitVec (23 + 5 + 4))

end Sys2Proof
end

