-- ==== Sys2Proof/Machine/State.lean ====
section
/-! DEFINITION. The state of one GOSTCORE instance (spec/10_state.md R20 to R29, R35), and the reasons a move can stop. -/

namespace Sys2Proof.Machine

/-- Where the command interface stands. `CMD` has "no command pending" after reset (R35), a command is in flight from the
host's write of CMD to its completion (20_memory.md R50), and a held reset ignores writes of CMD (70_reset_and_hazards.md
R172). Log 4. -/
inductive Phase where
  /-- The host holds reset. -/
  | resetHeld
  /-- No command is pending: the block waits for a write of CMD. -/
  | idle
  /-- The host has written CMD; the next step runs the command to its completion. -/
  | inFlight
deriving DecidableEq, Repr

/-- The state. Inputs are `cmd`, `w0`, `w1`, `w2`, `key`, `data`; results are `y0`, `y1`, `out`, `statusCode`. -/
structure State where
  /-- The configuration: R20 lists SBOX as constant state and has a model take the other parameters as arguments of its step
  (log 1). Nothing writes it (R22). -/
  cfg : Config
  /-- `CMD` (R26). -/
  cmd : Word
  /-- Whether a command is pending, and whether reset is held. -/
  phase : Phase
  /-- `W0` (R23). -/
  w0 : Word
  /-- `W1` (R23). -/
  w1 : Word
  /-- `W2` (R23). -/
  w2 : Word
  /-- `KEY`; its length is KLEN (R24). -/
  key : List Byte
  /-- `DATA`; its length is DLEN (R25). -/
  data : List Byte
  /-- `Y0` (R27). -/
  y0 : Word
  /-- `Y1` (R27). -/
  y1 : Word
  /-- `OUT`; its length is OLEN (R28). -/
  out : List Byte
  /-- `STATUS.CODE`, the bits [2:0] of STATUS (R29); bits [7:3] are hard-wired 0 and have no storage (log 9). -/
  statusCode : BitVec 3
deriving DecidableEq, Repr

/-- Every element at R35's value, for the instance with configuration `c`, its command interface at `p`. -/
def State.cleared (c : Config) (p : Phase) : State where
  cfg := c
  cmd := 0#32
  phase := p
  w0 := 0#32
  w1 := 0#32
  w2 := 0#32
  key := []
  data := []
  y0 := 0#32
  y1 := 0#32
  out := []
  statusCode := 0#3

/-- The machine right after reset (R35, 70_reset_and_hazards.md R171): idle, everything 0 or empty, SBOX its configured
constant. CMD's contents are 0 (log 3). -/
def State.reset : State := State.cleared Config.built .idle

/-- Why the machine faults. The spec gives the block no fault (60_exceptions.md R165) and no step answers one. -/
inductive Fault where
  /-- Raised by the host's read of STATUS (`readStatus`) where CODE is 7, which no command writes (R29): the treatment
  93_implementation_defined.md I7 asks for. Safe: the model stops where no run can be. -/
  | statusCodeReserved
deriving DecidableEq, Repr

/-- Why a move is refused. -/
inductive Refusal where
  /-- Raised by `exec` alone, for a command without a meaning in the model: no command is left without one. Safe. -/
  | notModelled (mnemonic : String)
  /-- Raised by the host's write of CMD while a command is in flight: the host breaks duty 1 of 70_reset_and_hazards.md R177,
  and 93_implementation_defined.md I6 has a model refuse it. Unsafe for a host that does it, as I6 says. -/
  | commandInFlight
  /-- Raised by a host write of W0, W1, W2, KEY or DATA while a command is in flight: duty 2 of R177, I6. Unsafe for a host
  that does it. -/
  | inputChangedInFlight
  /-- Raised by a host write of W0, W1, W2, KEY or DATA while reset is held: the spec says what a write of CMD does there (R172)
  and nothing of these (log 7). Safe: the model stops. -/
  | inputWriteInReset
deriving DecidableEq, Repr

end Sys2Proof.Machine
end

