-- ==== Sys2Proof/Machine/Flags.lean ====
section
/-! DEFINITION. The status of a command. The block has no flags or condition codes (spec/10_state.md R34); the one status
indication is STATUS.CODE (R29), whose values 60_exceptions.md R151 gives. -/

namespace Sys2Proof.Machine

/-- The errors of R151, by name. -/
inductive CmdError where
  /-- R152. -/
  | illegalCommand
  /-- R153. -/
  | invalidKeyLength
  /-- R154. -/
  | capacityExceeded
  /-- R155. -/
  | invalidBlockAlignment
  /-- R156. -/
  | invalidBlockLength
  /-- R157. -/
  | invalidPadding
deriving DecidableEq, Repr

/-- The code of success, 0 (R151). -/
def codeOk : BitVec 3 := 0#3

/-- The code of an error (R151). -/
def CmdError.code : CmdError → BitVec 3
  | .illegalCommand => 1#3
  | .invalidKeyLength => 2#3
  | .capacityExceeded => 3#3
  | .invalidBlockAlignment => 4#3
  | .invalidBlockLength => 5#3
  | .invalidPadding => 6#3

/-- The 8-bit register STATUS: CODE in bits [2:0], zero in the hard-wired bits [7:3] (R29). -/
def State.status (s : State) : BitVec 8 := s.statusCode.setWidth 8

end Sys2Proof.Machine
end

