-- ==== Sys2Proof/Machine/Operands.lean ====
section
/-! DEFINITION. Reading operands: byte order, buffer reads, key words, block halves, chunks, nibbles (spec/00_scope.md R8, R11;
spec/20_memory.md R40 to R46). A read carries the proof that it lies inside its buffer, so a read out of range cannot be
written: R41 says no command makes one and gives no fault for it. -/

namespace Sys2Proof.Machine

/-- Nibble `i` of a word, `x[4i+3:4i]` (R8). -/
def nibble (x : Word) (i : Nat) : Nibble := x.extractLsb' (4 * i) 4

/-- `LE32(b, a)` (R11): the byte at index `a` is the least significant. -/
def le32 {n : Nat} (b : Vector Byte n) (a : Nat) (h : a + 4 ≤ n) : Word :=
  b[a].setWidth 32 ||| (b[a + 1].setWidth 32 <<< 8) ||| (b[a + 2].setWidth 32 <<< 16) ||| (b[a + 3].setWidth 32 <<< 24)

/-- `toLE32(w)` (R11). -/
def toLE32 (w : Word) : Vector Byte 4 :=
  #v[w.extractLsb' 0 8, w.extractLsb' 8 8, w.extractLsb' 16 8, w.extractLsb' 24 8]

/-- `MemRead(S, a, n)` (R41), defined only when `a + n <= len(S)`. -/
def memRead (b : List Byte) (a n : Nat) (h : a + n ≤ b.length) : Vector Byte n :=
  ⟨((b.drop a).take n).toArray, by simp only [List.size_toArray, List.length_take, List.length_drop]; omega⟩

/-- Key word `K[j]` (R44). -/
def keyWord (key : Key) (j : Fin 8) : Word := le32 key (4 * j.val) (by omega)

/-- The half `left` of a block (R45). -/
def leftHalf (b : Block) : Word := le32 b 0 (by omega)

/-- The half `right` of a block (R45). -/
def rightHalf (b : Block) : Word := le32 b 4 (by omega)

/-- The block that holds two words, `first` in bytes 0..3 and `second` in bytes 4..7 (R45, R103). -/
def blockOf (first second : Word) : Block := toLE32 first ++ toLE32 second

/-- The chunks of a sequence in increasing order: chunk `c` of `s`, for c in [0, len(s)/8), is `s[8c..8c+8)` (R46). A rest of fewer than 8
bytes is in no chunk (log 17). -/
def chunks (s : List Byte) : List Block :=
  List.ofFn fun c : Fin (s.length / 8) => memRead s (8 * c.val) 8 (by omega)

/-- The spaces of R40. -/
inductive Space where
  | key
  | data
  | out
deriving DecidableEq, Repr

/-- The buffer of a space. -/
def State.buffer (s : State) : Space → List Byte
  | .key => s.key
  | .data => s.data
  | .out => s.out

/-- The byte at an index of a space: none at an index at or past the buffer's length, where there is no byte (R40). -/
def State.byteAt (s : State) (sp : Space) (a : Nat) : Option Byte := (s.buffer sp)[a]?

/-- A buffer as address and byte pairs, index 0 first (log 10). -/
def bufferCells (b : List Byte) : List Host.Cell := b.zipIdx.map fun p => (p.2, p.1)

/-- The canonical form of a list of cells that is a buffer: the addresses are 0, 1, 2, and so on, without a gap (R40). -/
def Memory.wf (cells : List Host.Cell) : Bool := cells.map Prod.fst == List.range cells.length

end Sys2Proof.Machine
end

