-- ==== Sys2Proof/Machine/Ops.lean ====
section
/-! DEFINITION. The operations by which a command ends: all its results written together at completion
(spec/20_memory.md R49), or the error outcome in their place (60_exceptions.md R159). The block has no trap entry and no
return (R150, R161): `State.raiseError` is what the spec has for taking an exception. -/

namespace Sys2Proof.Machine

/-- The results of a command that succeeds (10_state.md R27, R28). -/
structure Results where
  y0 : Word
  y1 : Word
  out : List Byte
deriving DecidableEq, Repr

/-- The results of a word command: an unused output is written 0 or `[]` (R27, R28, 40_round_engine.md R80). -/
def Results.words (y0 y1 : Word) : Results := ⟨y0, y1, []⟩

/-- The results of a byte command: Y0 and Y1 are written 0 (R27). -/
def Results.bytes (out : List Byte) : Results := ⟨0#32, 0#32, out⟩

/-- Completion in success: Y0, Y1, OUT and STATUS = OK together, and the command is no longer pending (R49, R151). -/
def State.succeed (s : State) (r : Results) : State :=
  { s with y0 := r.y0, y1 := r.y1, out := r.out, statusCode := codeOk, phase := .idle }

/-- `raise E`, the error outcome (R12, R159): STATUS.CODE, Y0 = Y1 = 0, OUT = `[]`, and nothing else but that the command is no
longer pending. -/
def State.raiseError (s : State) (e : CmdError) : State :=
  { s with y0 := 0#32, y1 := 0#32, out := [], statusCode := e.code, phase := .idle }

/-- Completion of a command with its outcome: exactly one of results and error (60_exceptions.md R165). -/
def State.complete (s : State) : Except CmdError Results → State
  | .ok r => s.succeed r
  | .error e => s.raiseError e

end Sys2Proof.Machine
end

