-- ==== Sys2Proof/Machine/RoundEngine.lean ====
section
/-! DEFINITION. The Round Engine: SUBST, ROTL, ROUND (spec/40_round_engine.md). -/

namespace Sys2Proof.Machine

/-- The entry `SBOX[i][v]` (10_state.md R21). -/
def sboxEntry (t : SboxTable) (i : Fin 8) (v : Nibble) : Nibble := t[i.val][v.toNat]

/-- `subst(x)` (R81): row i acts on nibble i. -/
def subst (t : SboxTable) (x : Word) : Word :=
  (List.finRange 8).foldl
    (fun (y : Word) (i : Fin 8) => y ||| ((sboxEntry t i (nibble x i.val)).setWidth 32 <<< (4 * i.val))) 0#32

/-- `rotl(x, s)` for s in [0, 32) (R83). -/
def rotl (x : Word) (s : Fin 32) : Word :=
  if s.val = 0 then x else (x <<< s.val) ||| (x >>> (32 - s.val))

/-- The value T of R85, which a round XORs into the other half. -/
def roundMask (t : SboxTable) (half k : Word) : Word := rotl (subst t (half + k)) 11

/-- `gostRound(L, R, k)` (R85): the next round's (left, right). -/
def gostRound (t : SboxTable) (h : Word × Word) (k : Word) : Word × Word :=
  (h.2 ^^^ roundMask t h.1 k, h.1)

/-- SUBST (R82). -/
def execSubst (s : State) : Host.Outcome State Fault Refusal :=
  .next (s.complete (.ok (Results.words (subst s.cfg.sbox s.w0) 0#32)))

/-- ROTL #sh (R84, R62). -/
def execRotl (sh : BitVec 5) (s : State) : Host.Outcome State Fault Refusal :=
  .next (s.complete (.ok (Results.words (rotl s.w0 ⟨sh.toNat, sh.isLt⟩) 0#32)))

/-- ROUND (R86): W0 is left, W1 is right, W2 is the round key. -/
def execRound (s : State) : Host.Outcome State Fault Refusal :=
  .next (s.complete
    (.ok (Results.words (gostRound s.cfg.sbox (s.w0, s.w1) s.w2).1 (gostRound s.cfg.sbox (s.w0, s.w1) s.w2).2)))

end Sys2Proof.Machine
end

