-- ==== Sys2Proof/Machine/BlockCipher.lean ====
section
/-! DEFINITION. The Block Cipher: ENC_BLOCK, DEC_BLOCK (spec/41_block_cipher.md). -/

namespace Sys2Proof.Machine

/-- `ks_enc` (R100). -/
def ksEnc (j : Fin 32) : Fin 8 :=
  ⟨if j.val < 24 then j.val % 8 else 7 - (j.val - 24), by split <;> omega⟩

/-- `ks_dec` (R101). -/
def ksDec (j : Fin 32) : Fin 8 :=
  ⟨if j.val < 8 then j.val else 7 - (j.val - 8) % 8, by split <;> omega⟩

/-- The 32 round keys in the order a schedule uses them. -/
def roundKeys (key : Key) (ks : Fin 32 → Fin 8) : List Word := List.ofFn fun j => keyWord key (ks j)

/-- Rounds under a list of round keys, each round's result the next round's operands (R103). -/
def runRounds (t : SboxTable) (keys : List Word) (h : Word × Word) : Word × Word := keys.foldl (gostRound t) h

/-- `blockCore(b, key, ks)` (R103). The halves are written R then L: 90_conflicts.md C1. -/
def blockCore (t : SboxTable) (b : Block) (key : Key) (ks : Fin 32 → Fin 8) : Block :=
  let h := runRounds t (roundKeys key ks) (leftHalf b, rightHalf b)
  blockOf h.2 h.1

/-- `encryptBlock(b, key)` (R104). -/
def encryptBlock (t : SboxTable) (b : Block) (key : Key) : Block := blockCore t b key ksEnc

/-- `decryptBlock(b, key)` (R105). -/
def decryptBlock (t : SboxTable) (b : Block) (key : Key) : Block := blockCore t b key ksDec

/-- What ENC_BLOCK and DEC_BLOCK share (R106, R107): the key check, then the block check, then the transform. -/
def blockOutcome (s : State) (f : Block → Key → Block) : Except CmdError Results :=
  if hk : s.key.length = 32 then
    if hd : s.data.length = 8 then
      .ok (Results.bytes (f (memRead s.data 0 8 (by omega)) (memRead s.key 0 32 (by omega))).toList)
    else .error .invalidBlockLength
  else .error .invalidKeyLength

/-- ENC_BLOCK (R106). -/
def execEncBlock (s : State) : Host.Outcome State Fault Refusal :=
  .next (s.complete (blockOutcome s (encryptBlock s.cfg.sbox)))

/-- DEC_BLOCK (R107). -/
def execDecBlock (s : State) : Host.Outcome State Fault Refusal :=
  .next (s.complete (blockOutcome s (decryptBlock s.cfg.sbox)))

end Sys2Proof.Machine
end

