-- ==== Sys2Proof/Machine/MessageCodec.lean ====
section
/-! DEFINITION. The Message Codec: PAD, UNPAD, ENC_MSG, DEC_MSG (spec/42_message_codec.md). -/

namespace Sys2Proof.Machine

/-- `padLen(n)` (R120), in [1, 8]. -/
def padLen (n : Nat) : Nat := 8 - n % 8

/-- `pad(d)` (R120). -/
def pad (d : List Byte) : List Byte :=
  d ++ List.replicate (padLen d.length) (BitVec.ofNat 8 (padLen d.length))

/-- `unpadStrict(p)` (R121); none is its failure. -/
def unpadStrict (p : List Byte) : Option (List Byte) :=
  match p.getLast? with
  | none => none
  | some last =>
    let n := last.toNat
    if n < 1 ∨ n > 8 ∨ n > p.length then none
    else if (p.drop (p.length - n)).all (fun b => b == last) then some (p.take (p.length - n))
    else none

/-- `unpadPermissive(p)` (R122); none is its failure. -/
def unpadPermissive (p : List Byte) : Option (List Byte) :=
  match p.getLast? with
  | none => none
  | some last =>
    let n := last.toNat
    if n = 0 ∨ n > p.length then none
    else some (p.take (p.length - n))

/-- `unpad`, as UNPAD_MODE selects (R122). -/
def unpad (mode : UnpadMode) (p : List Byte) : Option (List Byte) :=
  match mode with
  | .strict => unpadStrict p
  | .permissive => unpadPermissive p

/-- A block transform on each chunk, the results concatenated in order (R46, R123, R124). -/
def mapChunks (f : Block → Block) (x : List Byte) : List Byte := (chunks x).flatMap fun b => (f b).toList

/-- `encryptMessage(m, key)` (R123). -/
def encryptMessage (t : SboxTable) (m : List Byte) (key : Key) : List Byte :=
  mapChunks (fun b => encryptBlock t b key) (pad m)

/-- `decryptMessage(x, key)` (R124), defined when 8 divides len(x); none is the failure of `unpad`. -/
def decryptMessage (t : SboxTable) (mode : UnpadMode) (x : List Byte) (key : Key) : Option (List Byte) :=
  unpad mode (mapChunks (fun b => decryptBlock t b key) x)

/-- Whether a sequence of `n` bytes fits the buffers of an instance (R131). -/
def fits (maxMsgBytes : Option Nat) (n : Nat) : Bool :=
  match maxMsgBytes with
  | none => true
  | some m => decide (n ≤ m)

/-- `capacityExceeded(PAD or ENC_MSG, n)` (R131). -/
def padCapacityExceeded (c : Config) (n : Nat) : Bool := !fits c.maxMsgBytes (n + padLen n)

/-- `capacityExceeded(UNPAD or DEC_MSG, n)` (R131). -/
def unpadCapacityExceeded (c : Config) (n : Nat) : Bool := !fits c.maxMsgBytes n

/-- The outcome of an unpadding: its bytes, or InvalidPadding (R126, R128). -/
def unpadOutcome : Option (List Byte) → Except CmdError Results
  | some r => .ok (Results.bytes r)
  | none => .error .invalidPadding

/-- The outcome of PAD (R125). -/
def padOutcome (s : State) : Except CmdError Results :=
  if padCapacityExceeded s.cfg s.data.length then .error .capacityExceeded
  else .ok (Results.bytes (pad s.data))

/-- The outcome of UNPAD (R126). -/
def unpadDataOutcome (s : State) : Except CmdError Results :=
  if unpadCapacityExceeded s.cfg s.data.length then .error .capacityExceeded
  else unpadOutcome (unpad s.cfg.unpadMode s.data)

/-- The outcome of ENC_MSG (R127). -/
def encMsgOutcome (s : State) : Except CmdError Results :=
  if hk : s.key.length = 32 then
    if padCapacityExceeded s.cfg s.data.length then .error .capacityExceeded
    else .ok (Results.bytes (encryptMessage s.cfg.sbox s.data (memRead s.key 0 32 (by omega))))
  else .error .invalidKeyLength

/-- The outcome of DEC_MSG (R128): the checks in the order written there. -/
def decMsgOutcome (s : State) : Except CmdError Results :=
  if hk : s.key.length = 32 then
    if unpadCapacityExceeded s.cfg s.data.length then .error .capacityExceeded
    else if s.data.length % 8 ≠ 0 then .error .invalidBlockAlignment
    else unpadOutcome (decryptMessage s.cfg.sbox s.cfg.unpadMode s.data (memRead s.key 0 32 (by omega)))
  else .error .invalidKeyLength

/-- PAD (R125). -/
def execPad (s : State) : Host.Outcome State Fault Refusal := .next (s.complete (padOutcome s))

/-- UNPAD (R126). -/
def execUnpad (s : State) : Host.Outcome State Fault Refusal := .next (s.complete (unpadDataOutcome s))

/-- ENC_MSG (R127). -/
def execEncMsg (s : State) : Host.Outcome State Fault Refusal := .next (s.complete (encMsgOutcome s))

/-- DEC_MSG (R128). -/
def execDecMsg (s : State) : Host.Outcome State Fault Refusal := .next (s.complete (decMsgOutcome s))

end Sys2Proof.Machine
end

