-- ==== Sys2Proof/Machine/Dispatch.lean ====
section
/-! DEFINITION. One arm per command (spec/30_encoding.md R61). -/

namespace Sys2Proof.Machine

/-- The meaning of a command: from its issue to its completion (spec/70_reset_and_hazards.md R174). Log 16. -/
def exec (i : Instr) (s : State) : Host.Outcome State Fault Refusal :=
  match i with
  | .subst => Sys2Proof.Machine.execSubst s
  | .rotl sh => Sys2Proof.Machine.execRotl sh s
  | .round => Sys2Proof.Machine.execRound s
  | .encBlock => Sys2Proof.Machine.execEncBlock s
  | .decBlock => Sys2Proof.Machine.execDecBlock s
  | .pad => Sys2Proof.Machine.execPad s
  | .unpad => Sys2Proof.Machine.execUnpad s
  | .encMsg => Sys2Proof.Machine.execEncMsg s
  | .decMsg => Sys2Proof.Machine.execDecMsg s

end Sys2Proof.Machine
end

