-- ==== Sys2Proof/Machine/Issue.lean ====
section
/-! DEFINITION. Issuing a command: the host's write of CMD (spec/10_state.md R26), and the outcome of an illegal word
(60_exceptions.md R152). -/

namespace Sys2Proof.Machine

/-- The state after the host has written `w` to CMD: the command is in flight (R26, 20_memory.md R50). -/
def State.withCommand (s : State) (w : Word) : State := { s with cmd := w, phase := .inFlight }

/-- An illegal command word: the error outcome with IllegalCommand; no buffer is read and nothing is computed (R152, R159). -/
def illegalCommandOutcome (s : State) : Host.Outcome State Fault Refusal :=
  .next (s.complete (.error .illegalCommand))

end Sys2Proof.Machine
end

