-- ==== Sys2Proof/Machine/Step.lean ====
section
/-! DEFINITION. The step (spec/70_reset_and_hazards.md R174). -/

namespace Sys2Proof.Machine

/-- One step of the block: a command in flight runs to its completion; without one the block waits (R171), and so it does while
reset is held (R172). Log 4 and log 5. -/
def step (s : State) : Host.Outcome State Fault Refusal :=
  match s.phase with
  | .resetHeld => .next s
  | .idle => .next s
  | .inFlight =>
    match decode s.cmd with
    | .ok i => exec i s
    | .error _ => illegalCommandOutcome s

/-- `s` with a command word written to CMD and in flight, as a host's write of CMD leaves it (R26): the very next step runs it.
The bits above `nbits` are zero. Log 5. -/
def State.withFetchWord (s : State) (nbits w : Nat) : State := s.withCommand (BitVec.ofNat 32 (w % 2 ^ nbits))

end Sys2Proof.Machine
end

