-- ==== Sys2Proof/Machine/HostMoves.lean ====
section
/-! DEFINITION. What the host can do to one instance (spec/30_encoding.md R67; 20_memory.md R50, R56; 60_exceptions.md R150;
70_reset_and_hazards.md R170 to R173, R177). A host move is no command and no step of the block. -/

namespace Sys2Proof.Machine

/-- The host's writes of inputs, its write of CMD, and reset. -/
inductive HostMove where
  /-- `set W0 = v` (R67). -/
  | setW0 (v : Word)
  /-- `set W1 = v`. -/
  | setW1 (v : Word)
  /-- `set W2 = v`. -/
  | setW2 (v : Word)
  /-- `set KEY = bytes`; any length (10_state.md R24). -/
  | setKey (bytes : List Byte)
  /-- `set DATA = bytes`; any length (10_state.md R25). -/
  | setData (bytes : List Byte)
  /-- `copy OUT -> DATA` (20_memory.md R56): a write of DATA (log 8). -/
  | copyOutToData
  /-- The write of CMD, which issues the command (10_state.md R26). -/
  | issue (w : Word)
  /-- The host asserts reset (R170). -/
  | assertReset
  /-- The host releases reset. -/
  | releaseReset
deriving DecidableEq, Repr

/-- A write of an input register or buffer: its effect when the block is idle, refused while a command is in flight (R177 duty
2; 93_implementation_defined.md I6; log 6) and while reset is held (log 7). -/
def writeInput (s t : State) : Host.Outcome State Fault Refusal :=
  match s.phase with
  | .idle => .next t
  | .inFlight => .refused .inputChangedInFlight
  | .resetHeld => .refused .inputWriteInReset

/-- A write of CMD: it issues the command when the block is idle, is refused while a command is in flight (R177 duty 1, I6, log
6), and is ignored while reset is held (R172). -/
def writeCmd (w : Word) (s : State) : Host.Outcome State Fault Refusal :=
  match s.phase with
  | .idle => .next (s.withCommand w)
  | .inFlight => .refused .commandInFlight
  | .resetHeld => .next s

/-- Reset asserted, at any time: every element at its reset value, a command in flight abandoned with no result, the
configuration kept (R170, R22, R35). -/
def assertReset (s : State) : State := State.cleared s.cfg .resetHeld

/-- Reset released: the block is idle (R171). Where reset is not held there is nothing to release (log 15). -/
def releaseReset (s : State) : State :=
  match s.phase with
  | .resetHeld => { s with phase := .idle }
  | .idle => s
  | .inFlight => s

/-- The effect of a host move. -/
def hostMove (m : HostMove) (s : State) : Host.Outcome State Fault Refusal :=
  match m with
  | .setW0 v => writeInput s { s with w0 := v }
  | .setW1 v => writeInput s { s with w1 := v }
  | .setW2 v => writeInput s { s with w2 := v }
  | .setKey bytes => writeInput s { s with key := bytes }
  | .setData bytes => writeInput s { s with data := bytes }
  | .copyOutToData => writeInput s { s with data := s.out }
  | .issue w => writeCmd w s
  | .assertReset => .next (assertReset s)
  | .releaseReset => .next (releaseReset s)

/-- The host's read of Y0: at any time, and with no side effect (R174; 20_memory.md R48, R50; log 18). -/
def readY0 (s : State) : Word := s.y0

/-- The host's read of Y1. -/
def readY1 (s : State) : Word := s.y1

/-- The host's read of OUT. -/
def readOut (s : State) : List Byte := s.out

/-- The host's read of STATUS. CODE 7 is never written; a state in which it reads 7 has gone wrong and the read faults
(93_implementation_defined.md I7). -/
def readStatus (s : State) : Host.Outcome (BitVec 8) Fault Refusal :=
  if s.statusCode = 7#3 then .fault .statusCodeReserved else .next s.status

/-- One transaction: the host writes `w` to CMD and the block runs the command (R174). -/
def transact (w : Word) (s : State) : Host.Outcome State Fault Refusal :=
  match hostMove (.issue w) s with
  | .next t => step t
  | .fault r => .fault r
  | .refused r => .refused r

end Sys2Proof.Machine
end

