-- ==== Sys2Proof/Machine/Assembler.lean ====
section
/-! DEFINITION. The assembler syntax of commands and host statements, one a line, and the disassembler
(spec/30_encoding.md R67 to R69). Text is read as a list of characters; single spaces and the case of hexadecimal digits are
log 12. -/

namespace Sys2Proof.Machine

/-- A line of a host program: a command word to issue, or a host statement. -/
inductive HostLine where
  | command (w : Word)
  | statement (m : HostMove)
deriving DecidableEq, Repr

/-- The rest of a text after a given beginning, none where it does not begin so. -/
def dropText : List Char → List Char → Option (List Char)
  | [], text => some text
  | _ :: _, [] => none
  | c :: cs, d :: ds => if c = d then dropText cs ds else none

/-- The value of a decimal digit. -/
def decDigit (c : Char) : Option Nat :=
  if 48 ≤ c.toNat ∧ c.toNat ≤ 57 then some (c.toNat - 48) else none

/-- The value of a hexadecimal digit of either case. -/
def hexDigit (c : Char) : Option Nat :=
  if 48 ≤ c.toNat ∧ c.toNat ≤ 57 then some (c.toNat - 48)
  else if 65 ≤ c.toNat ∧ c.toNat ≤ 70 then some (c.toNat - 55)
  else if 97 ≤ c.toNat ∧ c.toNat ≤ 102 then some (c.toNat - 87)
  else none

/-- The number a list of digits writes in a base, the first digit the most significant, on from `acc`. -/
def digitsFrom (base : Nat) (digit : Char → Option Nat) : Nat → List Char → Option Nat
  | acc, [] => some acc
  | acc, c :: cs =>
    match digit c with
    | some d => digitsFrom base digit (acc * base + d) cs
    | none => none

/-- `0xHHHHHHHH`: eight hexadecimal digits, a 32-bit word. -/
def parseWord (text : List Char) : Option Word :=
  match dropText "0x".toList text with
  | some digits => if digits.length = 8 then (digitsFrom 16 hexDigit 0 digits).map (BitVec.ofNat 32) else none
  | none => none

/-- ROTL's amount: decimal 0..31 or hexadecimal 0x00..0x1F. -/
def parseAmount (text : List Char) : Option (BitVec 5) :=
  let value :=
    match dropText "0x".toList text with
    | some digits => if digits.length = 2 then digitsFrom 16 hexDigit 0 digits else none
    | none => if text = [] then none else digitsFrom 10 decDigit 0 text
  match value with
  | some n => if n < 32 then some (BitVec.ofNat 5 n) else none
  | none => none

/-- Hexadecimal byte pairs up to the closing quote. -/
def parseHexBytes : List Char → Option (List Byte)
  | ['"'] => some []
  | c :: d :: rest =>
    match hexDigit c, hexDigit d, parseHexBytes rest with
    | some h, some l, some bytes => some (BitVec.ofNat 8 (16 * h + l) :: bytes)
    | _, _, _ => none
  | _ => none

/-- ASCII characters, one byte each, up to the closing quote. -/
def parseAscii : List Char → Option (List Byte)
  | [] => none
  | [c] => if c = '"' then some [] else none
  | c :: d :: rest =>
    if c ≠ '"' ∧ c.toNat < 128 then
      match parseAscii (d :: rest) with
      | some bytes => some (BitVec.ofNat 8 c.toNat :: bytes)
      | none => none
    else none

/-- `<bytes>` of R67: `hex"0011..."`, `"..."` or `[]`. -/
def parseBytes (text : List Char) : Option (List Byte) :=
  if text = "[]".toList then some []
  else
    match dropText "hex\"".toList text, dropText "\"".toList text with
    | some digits, _ => parseHexBytes digits
    | none, some chars => parseAscii chars
    | none, none => none

/-- The mnemonic of a command (R61). -/
def mnemonic : Instr → String
  | .subst => "SUBST"
  | .rotl _ => "ROTL"
  | .round => "ROUND"
  | .encBlock => "ENC_BLOCK"
  | .decBlock => "DEC_BLOCK"
  | .pad => "PAD"
  | .unpad => "UNPAD"
  | .encMsg => "ENC_MSG"
  | .decMsg => "DEC_MSG"

/-- The commands that take no operand in R67's table. -/
def operandless : List Instr := [.subst, .round, .encBlock, .decBlock, .pad, .unpad, .encMsg, .decMsg]

/-- A command line of R67: a mnemonic, `ROTL #s`, or `.word`. -/
def parseCommand (text : List Char) : Option Word :=
  match operandless.find? (fun i => (mnemonic i).toList == text) with
  | some i => some (encode i)
  | none =>
    match dropText "ROTL #".toList text with
    | some amount => (parseAmount amount).map fun sh => encode (.rotl sh)
    | none =>
      match dropText ".word ".toList text with
      | some word => parseWord word
      | none => none

/-- A host statement of R67: `set` or `copy`. -/
def parseStatement (text : List Char) : Option HostMove :=
  if text = "copy OUT -> DATA".toList then some .copyOutToData
  else
    match dropText "set W0 = ".toList text, dropText "set W1 = ".toList text, dropText "set W2 = ".toList text,
      dropText "set KEY = ".toList text, dropText "set DATA = ".toList text with
    | some v, _, _, _, _ => (parseWord v).map .setW0
    | _, some v, _, _, _ => (parseWord v).map .setW1
    | _, _, some v, _, _ => (parseWord v).map .setW2
    | _, _, _, some v, _ => (parseBytes v).map .setKey
    | _, _, _, _, some v => (parseBytes v).map .setData
    | _, _, _, _, _ => none

/-- The assembler on one line: none where it refuses the line (R67). -/
def assembleLine (text : List Char) : Option HostLine :=
  match parseCommand text with
  | some w => some (.command w)
  | none => (parseStatement text).map .statement

/-- An uppercase hexadecimal digit. -/
def hexChar (v : Nibble) : Char :=
  if v.toNat < 10 then Char.ofNat (48 + v.toNat) else Char.ofNat (55 + v.toNat)

/-- Eight uppercase hexadecimal digits, the most significant first (R69). -/
def hexText (w : Word) : List Char :=
  [hexChar (nibble w 7), hexChar (nibble w 6), hexChar (nibble w 5), hexChar (nibble w 4),
    hexChar (nibble w 3), hexChar (nibble w 2), hexChar (nibble w 1), hexChar (nibble w 0)]

/-- A number below 100 in decimal without a leading zero. -/
def decText (n : Nat) : List Char :=
  if n < 10 then [Char.ofNat (48 + n)] else [Char.ofNat (48 + n / 10), Char.ofNat (48 + n % 10)]

/-- A command in the syntax of R67. -/
def commandText : Instr → List Char
  | .subst => (mnemonic .subst).toList
  | .rotl sh => "ROTL #".toList ++ decText sh.toNat
  | .round => (mnemonic .round).toList
  | .encBlock => (mnemonic .encBlock).toList
  | .decBlock => (mnemonic .decBlock).toList
  | .pad => (mnemonic .pad).toList
  | .unpad => (mnemonic .unpad).toList
  | .encMsg => (mnemonic .encMsg).toList
  | .decMsg => (mnemonic .decMsg).toList

/-- The disassembler (R69): a legal word in R67's syntax, an illegal one as `.word`. -/
def disassemble (w : Word) : List Char :=
  match decode w with
  | .ok i => commandText i
  | .error _ => ".word 0x".toList ++ hexText w

/-- One line of a host program: a host statement, or a command issued and run. -/
def runLine (l : HostLine) (s : State) : Host.Outcome State Fault Refusal :=
  match l with
  | .command w => transact w s
  | .statement m => hostMove m s

/-- A host program, line by line, stopping at the first fault or refusal. -/
def runProgram : List HostLine → State → Host.Outcome State Fault Refusal
  | [], s => .next s
  | l :: ls, s =>
    match runLine l s with
    | .next t => runProgram ls t
    | .fault r => .fault r
    | .refused r => .refused r

end Sys2Proof.Machine
end

