-- ==== Sys2Proof/Machine/Instances.lean ====
section
/-! DEFINITION. Several instances side by side (spec/60_exceptions.md R164): each has its own registers and buffers, and a move
of one touches no other. Log 14. -/

namespace Sys2Proof.Machine

/-- A move of the system: a step of instance `k`, or a host move on it. -/
inductive SystemMove where
  | step (k : Nat)
  | host (k : Nat) (m : HostMove)
deriving DecidableEq, Repr

/-- The instance a move belongs to. -/
def SystemMove.target : SystemMove → Nat
  | .step k => k
  | .host k _ => k

/-- What a move does to its own instance. -/
def SystemMove.apply (m : SystemMove) (s : State) : Host.Outcome State Fault Refusal :=
  match m with
  | .step _ => Sys2Proof.Machine.step s
  | .host _ h => hostMove h s

/-- A move of the system: none where there is no such instance, else the outcome for all of them. -/
def systemMove (m : SystemMove) (cores : List State) : Option (Host.Outcome (List State) Fault Refusal) :=
  match cores[m.target]? with
  | none => none
  | some s =>
    match m.apply s with
    | .next t => some (.next (cores.set m.target t))
    | .fault r => some (.fault r)
    | .refused r => some (.refused r)

end Sys2Proof.Machine
end

