-- ==== Sys2Proof/Safety.lean ====
section
/-! DEFINITION. The terms in which claims are stated: how a command leaves the state, when an error applies and in which order
errors are reported, which inputs a command reads, the invariant, safe runs, and the two tables of spec/95_test_vectors.md. -/

namespace Sys2Proof.Machine

/-- `s` as a completed command leaves it, given its results: only Y0, Y1, OUT, STATUS.CODE and the pending command differ
(spec/20_memory.md R49, R55). -/
def State.endsWith (s : State) (y0 y1 : Word) (out : List Byte) (code : BitVec 3) : State :=
  { s with y0 := y0, y1 := y1, out := out, statusCode := code, phase := .idle }

/-- The commands that take a key (60_exceptions.md R153). -/
def takesKey : Instr → Bool
  | .encBlock => true
  | .decBlock => true
  | .encMsg => true
  | .decMsg => true
  | .subst => false
  | .rotl _ => false
  | .round => false
  | .pad => false
  | .unpad => false

/-- The length whose excess over MAX_MSG_BYTES is CapacityExceeded, for the commands that check it (42_message_codec.md
R131). -/
def capacityNeed (dlen : Nat) : Instr → Option Nat
  | .pad => some (dlen + padLen dlen)
  | .encMsg => some (dlen + padLen dlen)
  | .unpad => some dlen
  | .decMsg => some dlen
  | .subst => none
  | .rotl _ => none
  | .round => none
  | .encBlock => none
  | .decBlock => none

/-- Whether an error's cause holds for a command on a state (60_exceptions.md R152 to R157). The cause of IllegalCommand is a word
that does not decode, so no command has it. -/
def ErrorApplies (i : Instr) (s : State) : CmdError → Prop
  | .illegalCommand => False
  | .invalidKeyLength => takesKey i = true ∧ s.key.length ≠ 32
  | .capacityExceeded => ∃ n m, capacityNeed s.data.length i = some n ∧ s.cfg.maxMsgBytes = some m ∧ m < n
  | .invalidBlockAlignment => i = .decMsg ∧ s.data.length % 8 ≠ 0
  | .invalidBlockLength => (i = .encBlock ∨ i = .decBlock) ∧ s.data.length ≠ 8
  | .invalidPadding =>
    (i = .unpad ∧ unpad s.cfg.unpadMode s.data = none) ∨
    (i = .decMsg ∧ s.data.length % 8 = 0 ∧
      ∃ k : Key, s.key = k.toList ∧ decryptMessage s.cfg.sbox s.cfg.unpadMode s.data k = none)

/-- The place of an error in the order of R158; the two that share a place never apply to one command. -/
def CmdError.place : CmdError → Nat
  | .illegalCommand => 0
  | .invalidKeyLength => 1
  | .capacityExceeded => 2
  | .invalidBlockAlignment => 3
  | .invalidBlockLength => 3
  | .invalidPadding => 4

/-- The "reads" column of 30_encoding.md R61: two states agree on what a command reads. -/
def AgreeOnReads (i : Instr) (s s' : State) : Prop :=
  match i with
  | .subst => s.w0 = s'.w0
  | .rotl _ => s.w0 = s'.w0
  | .round => s.w0 = s'.w0 ∧ s.w1 = s'.w1 ∧ s.w2 = s'.w2
  | .encBlock => s.key = s'.key ∧ s.data = s'.data
  | .decBlock => s.key = s'.key ∧ s.data = s'.data
  | .pad => s.data = s'.data
  | .unpad => s.data = s'.data
  | .encMsg => s.key = s'.key ∧ s.data = s'.data
  | .decMsg => s.key = s'.key ∧ s.data = s'.data

/-- Two states hold the same results: Y0, Y1, OUT and STATUS. -/
def SameResults (s s' : State) : Prop :=
  s.y0 = s'.y0 ∧ s.y1 = s'.y1 ∧ s.out = s'.out ∧ s.statusCode = s'.statusCode

/-- Two states hold the same inputs and configuration: CMD, W0, W1, W2, KEY and DATA. -/
def SameInputs (s s' : State) : Prop :=
  s.cfg = s'.cfg ∧ s.cmd = s'.cmd ∧ s.w0 = s'.w0 ∧ s.w1 = s'.w1 ∧ s.w2 = s'.w2 ∧ s.key = s'.key ∧ s.data = s'.data

/-- The invariant of the result registers. CODE 7 is never written (10_state.md R29). After an error Y0, Y1 and OUT are empty
(60_exceptions.md R159). OUT fits its buffer (R131). No command fills both the words and OUT (R27, R28). -/
structure State.Inv (s : State) : Prop where
  code_legal : s.statusCode ≠ 7#3
  error_empty : s.statusCode ≠ 0#3 → s.y0 = 0#32 ∧ s.y1 = 0#32 ∧ s.out = []
  out_fits : ∀ m, s.cfg.maxMsgBytes = some m → s.out.length ≤ m
  one_kind : s.out ≠ [] → s.y0 = 0#32 ∧ s.y1 = 0#32

/-- A run of `k` steps that neither faults nor is refused, and ends in the invariant. -/
def State.SafeFor (s : State) (k : Nat) : Prop :=
  ∃ t, Host.Core.run Sys2Proof.core k s = .next t ∧ t.Inv

/-- The table ID of 95_test_vectors.md: each row the identity. A test choice of the spec, not the block's table. -/
def sboxId : SboxTable := Vector.replicate 8 #v[0, 1, 2, 3, 4, 5, 6, 7, 8, 9, 10, 11, 12, 13, 14, 15]

/-- The table GK of 95_test_vectors.md, row by row. From general knowledge, for vectors only; not claimed to be the block's
table (91_not_in_source.md N1). -/
def sboxGk : SboxTable :=
  #v[#v[4, 10, 9, 2, 13, 8, 0, 14, 6, 11, 1, 12, 7, 15, 5, 3],
    #v[14, 11, 4, 12, 6, 13, 15, 10, 2, 3, 8, 1, 0, 7, 5, 9],
    #v[5, 8, 1, 13, 10, 3, 4, 2, 14, 15, 12, 7, 6, 0, 9, 11],
    #v[7, 13, 10, 1, 0, 8, 9, 15, 14, 4, 6, 12, 11, 2, 5, 3],
    #v[6, 12, 7, 1, 5, 15, 13, 8, 4, 10, 9, 14, 0, 3, 11, 2],
    #v[4, 11, 10, 0, 7, 2, 1, 13, 3, 6, 8, 5, 9, 12, 15, 14],
    #v[13, 11, 4, 1, 3, 15, 5, 9, 0, 10, 14, 7, 6, 8, 2, 12],
    #v[1, 15, 13, 0, 5, 7, 10, 4, 9, 2, 3, 14, 6, 11, 8, 12]]

end Sys2Proof.Machine
end

