-- ==== Sys2Proof/Certificates/Slice0/Obligations.lean ====
section
/-! DEFINITION. The statements for the provers. R<n> is a numbered rule of spec/. `State.endsWith` writes out the state in which a
command leaves the machine: everything but Y0, Y1, OUT, STATUS.CODE and the pending command as it was, so that a result
stated with it is the command's frame as well. -/

open Sys2Proof Sys2Proof.Machine

/-! ## Encoding -/

/-- Every command is decoded from its word, with ROTL's amount at every value of its field (R60, R65). -/
def Obligations.DecodeOfEncode : Prop :=
  ∀ i : Instr, decode (encode i) = .ok i

/-- A word that decodes is the word of the command it decodes to: no two words stand for one command, and no bit of a word is
ignored (R64, R65). -/
def Obligations.EncodeOfDecode : Prop :=
  ∀ (w : Word) (i : Instr), decode w = .ok i → encode i = w

/-- Which words are legal, a sentence the spec marks as derived (in R65), and what each decodes to. -/
def Obligations.LegalWordsDecodeAsListed : Prop :=
  (∀ w : Word, (∃ i, decode w = .ok i) ↔
    (w = 0x1#32 ∨ (3 ≤ w.toNat ∧ w.toNat ≤ 9) ∨ ∃ n : Nat, n < 32 ∧ w = 0x2#32 ||| (BitVec.ofNat 32 n <<< 4))) ∧
  decode 0x00000001#32 = .ok .subst ∧
  (∀ sh : BitVec 5, decode (0x00000002#32 ||| (sh.setWidth 32 <<< 4)) = .ok (.rotl sh)) ∧
  decode 0x00000003#32 = .ok .round ∧
  decode 0x00000004#32 = .ok .encBlock ∧
  decode 0x00000005#32 = .ok .decBlock ∧
  decode 0x00000006#32 = .ok .pad ∧
  decode 0x00000007#32 = .ok .unpad ∧
  decode 0x00000008#32 = .ok .encMsg ∧
  decode 0x00000009#32 = .ok .decMsg

/-- R64 and R152: the three conditions, with the fields as numbers; there are 40 legal words; an illegal word that is issued ends
with IllegalCommand and the error outcome, whatever the inputs hold. -/
def Obligations.IllegalWordEndsInIllegalCommand : Prop :=
  (∀ w : Word, (∃ r, decode w = .error r) ↔
    (w.toNat / 512 ≠ 0 ∨ w.toNat % 16 = 0 ∨ 10 ≤ w.toNat % 16 ∨ (w.toNat % 16 ≠ 2 ∧ w.toNat / 16 % 32 ≠ 0))) ∧
  (∃ legal : List Word, legal.Nodup ∧ legal.length = 40 ∧ ∀ w, w ∈ legal ↔ ∃ i, decode w = .ok i) ∧
  (∀ s : State, s.phase = .inFlight → (∃ r, decode s.cmd = .error r) →
    step s = .next (s.endsWith 0#32 0#32 [] 1#3))

/-- Words written out from the spec's encoding, one or more a family, and words that are illegal (95_test_vectors.md D-1 to
D-14). -/
def Obligations.SpecWordsDecode : Prop :=
  decode 0x00000001#32 = .ok .subst ∧
  decode 0x000000B2#32 = .ok (.rotl 11#5) ∧
  decode 0x000001F2#32 = .ok (.rotl 31#5) ∧
  decode 0x00000005#32 = .ok .decBlock ∧
  decode 0x00000009#32 = .ok .decMsg ∧
  decode 0x00000000#32 = .error .reservedOpcode ∧
  decode 0x0000000A#32 = .error .reservedOpcode ∧
  decode 0x00000098#32 = .error .shiftOffRotl ∧
  decode 0x00000202#32 = .error .reservedBits ∧
  decode 0x80000004#32 = .error .reservedBits

/-! ## Step and transaction -/

/-- A step runs the decoded command: with a command in flight whose word decodes, the step is that command's meaning, and
nothing is added around it. The meaning ends with the command no longer pending and CMD still holding its word. A word
placed by `withFetchWord` is the word the step runs. -/
def Obligations.StepRunsDecodedCommand : Prop :=
  (∀ (s : State) (i : Instr), s.phase = .inFlight → decode s.cmd = .ok i → step s = exec i s) ∧
  (∀ (s t : State) (i : Instr), exec i s = .next t → t.phase = .idle ∧ t.cmd = s.cmd) ∧
  (∀ (s : State) (i : Instr), step (s.withFetchWord 32 (encode i).toNat) = exec i (s.withCommand (encode i)))

/-- Where no command is in flight, before a write of CMD or while reset is held, a step changes nothing (the model's form of
"waits for a write of `CMD`" in R171: log 5). -/
def Obligations.StepWaitsWithoutCommand : Prop :=
  State.reset.phase = .idle ∧ ∀ s : State, s.phase ≠ .inFlight → step s = .next s

/-- R174: a transaction is total, and what it writes is one function of the configuration, the inputs and the command word. -/
def Obligations.TransactionIsFunctionOfConfigInputsCmd : Prop :=
  ∃ f : Config → Word → Word → Word → List Byte → List Byte → Word → BitVec 3 × Word × Word × List Byte,
    ∀ (s : State) (w : Word), s.phase = .idle →
      transact w s = .next
        ({ s with cmd := w }.endsWith (f s.cfg s.w0 s.w1 s.w2 s.key s.data w).2.1
          (f s.cfg s.w0 s.w1 s.w2 s.key s.data w).2.2.1 (f s.cfg s.w0 s.w1 s.w2 s.key s.data w).2.2.2
          (f s.cfg s.w0 s.w1 s.w2 s.key s.data w).1)

/-- R165, a sentence the spec marks as derived: every step answers a next state; a command in flight completes, with its results
and STATUS OK or with the error outcome. -/
def Obligations.EveryStepCompletes : Prop :=
  ∀ s : State, ∃ t, step s = .next t ∧
    (s.phase = .inFlight → t.phase = .idle ∧
      (t.statusCode = 0#3 ∨ ∃ e : CmdError, t = s.endsWith 0#32 0#32 [] e.code))

/-- R32, a sentence the spec marks as derived: what a command in flight leaves in the result registers depends on the inputs and
the configuration, not on what came before; and the command leaves nothing else behind. -/
def Obligations.ResultsDoNotDependOnHistory : Prop :=
  ∀ s s' : State, SameInputs s s' → s.phase = .inFlight → s'.phase = .inFlight →
    ∃ t t', step s = .next t ∧ step s' = .next t' ∧ SameResults t t' ∧ SameInputs t s ∧ t.phase = .idle

/-- A command never reads OUT, it does not write DATA, a write of DATA does not write OUT, and the copy of OUT to DATA is the
host's (R56). That the copy is one move that sets DATA and nothing else is the model's deduction (log 8). That a command reads
neither Y0, Y1 nor STATUS is from R32. -/
def Obligations.CommandsNeverReadResults : Prop :=
  (∀ (i : Instr) (s : State) (a b : Word) (o : List Byte) (c : BitVec 3),
    exec i { s with y0 := a, y1 := b, out := o, statusCode := c } = exec i s) ∧
  (∀ (i : Instr) (s t : State), exec i s = .next t → t.data = s.data) ∧
  (∀ (s t : State) (b : List Byte), hostMove (.setData b) s = .next t → t.data = b ∧ t.out = s.out) ∧
  (∀ s : State, s.phase = .idle → hostMove .copyOutToData s = .next { s with data := s.out })

/-- A command issued again with the same inputs, at once, writes the same results (R48, and R178, which the spec marks as
derived). -/
def Obligations.CommandsAreIdempotent : Prop :=
  ∀ s t : State, s.phase = .inFlight → step s = .next t →
    hostMove (.issue s.cmd) t = .next (t.withCommand s.cmd) ∧ step (t.withCommand s.cmd) = .next t

/-! ## Frames over all commands -/

/-- R55 and R22: no step writes an input or the configuration, and no host move writes the configuration. Byte by byte, KEY and
DATA read as before. -/
def Obligations.InputsAndConfigUnchanged : Prop :=
  (∀ s t : State, step s = .next t →
    SameInputs t s ∧ ∀ a : Nat, t.byteAt .key a = s.byteAt .key a ∧ t.byteAt .data a = s.byteAt .data a) ∧
  (∀ (i : Instr) (s t : State), exec i s = .next t → SameInputs t s) ∧
  (∀ (m : HostMove) (s t : State), hostMove m s = .next t → t.cfg = s.cfg)

/-- R63: a command ignores every input that its "reads" column does not list. -/
def Obligations.UnreadInputsAreIgnored : Prop :=
  ∀ (i : Instr) (s s' : State), s.cfg = s'.cfg → AgreeOnReads i s s' →
    ∃ t t', exec i s = .next t ∧ exec i s' = .next t' ∧ SameResults t t'

/-- Two runs that differ only in KEY and W2 differ afterwards only there and in the result registers: no other state holds
anything derived from them (R31). -/
def Obligations.NoStateKeepsKeyMaterial : Prop :=
  ∀ (s t t' : State) (k : List Byte) (v : Word), step s = .next t → step { s with key := k, w2 := v } = .next t' →
    t' = { t with key := k, w2 := v, y0 := t'.y0, y1 := t'.y1, out := t'.out, statusCode := t'.statusCode }

/-! ## Round Engine -/

/-- R21: each row of the table of every configuration is a bijection, and every table of bijections is one a configuration may
have. -/
def Obligations.SboxRowsAreBijections : Prop :=
  (∀ (c : Config) (i : Fin 8), Function.Bijective fun v : Nibble => sboxEntry c.sbox i v) ∧
  (∀ t : SboxTable, (∀ i : Fin 8, Function.Bijective fun v : Nibble => sboxEntry t i v) → sboxLegal t = true)

/-- R81: row i acts on nibble i only, and output nibble i stands where input nibble i stood. -/
def Obligations.SubstActsNibbleByNibble : Prop :=
  ∀ (t : SboxTable) (x : Word) (i : Fin 8),
    (subst t x).extractLsb' (4 * i.val) 4 = t[i.val][(x.extractLsb' (4 * i.val) 4).toNat]

/-- R82: SUBST's result, nibble by nibble; its frame; its corner cases and example. -/
def Obligations.SubstCommandWritesSubstitutedWord : Prop :=
  encode .subst = 0x00000001#32 ∧
  (∀ s : State, ∃ v : Word, exec .subst s = .next (s.endsWith v 0#32 [] 0#3) ∧
    ∀ i : Fin 8, nibble v i.val = s.cfg.sbox[i.val][(nibble s.w0 i.val).toNat]) ∧
  (∀ s : State, s.cfg.sbox = sboxId → exec .subst s = .next (s.endsWith s.w0 0#32 [] 0#3)) ∧
  (∀ s : State, s.w0 = 0#32 → ∃ v : Word, exec .subst s = .next (s.endsWith v 0#32 [] 0#3) ∧
    ∀ i : Fin 8, nibble v i.val = s.cfg.sbox[i.val][0]) ∧
  (∀ c : Config, Function.Bijective fun x : Word => subst c.sbox x) ∧
  (∀ s : State, s.cfg.sbox = sboxGk → s.w0 = 0x00000000#32 →
    exec .subst s = .next (s.endsWith 0x1D4675E4#32 0#32 [] 0#3))

/-- R83: rotation, by its formula and bit by bit; at s = 0 the general formula agrees. -/
def Obligations.RotlMovesEveryBit : Prop :=
  ∀ (x : Word) (s : Fin 32),
    (s.val = 0 → rotl x s = x) ∧
    (s.val ≠ 0 → rotl x s = (x <<< s.val) ||| (x >>> (32 - s.val))) ∧
    (∀ i : Fin 32, (rotl x s).getLsbD ((i.val + s.val) % 32) = x.getLsbD i.val) ∧
    (x <<< 0) ||| (x >>> 32) = rotl x 0

/-- R84: ROTL's result, bit by bit, for every amount; its frame; its corner cases and example. -/
def Obligations.RotlCommandRotatesLeft : Prop :=
  (∀ sh : BitVec 5, encode (.rotl sh) = 0x00000002#32 ||| (sh.setWidth 32 <<< 4)) ∧
  (∀ (sh : BitVec 5) (s : State), ∃ v : Word, exec (.rotl sh) s = .next (s.endsWith v 0#32 [] 0#3) ∧
    (∀ i : Fin 32, v.getLsbD ((i.val + sh.toNat) % 32) = s.w0.getLsbD i.val) ∧
    (sh = 0#5 → v = s.w0) ∧
    (s.w0 = 0#32 → v = 0#32) ∧
    (s.w0 = 0xFFFFFFFF#32 → v = 0xFFFFFFFF#32)) ∧
  (∀ s : State, s.w0 = 0x80000000#32 → exec (.rotl 1#5) s = .next (s.endsWith 0x00000001#32 0#32 [] 0#3)) ∧
  (∀ s : State, s.w0 = 0x00000001#32 → exec (.rotl 31#5) s = .next (s.endsWith 0x80000000#32 0#32 [] 0#3)) ∧
  (∀ s : State, s.w0 = 0x12345678#32 → exec (.rotl 11#5) s = .next (s.endsWith 0xA2B3C091#32 0#32 [] 0#3))

/-- R85 and R86: ROUND adds the key, then substitutes, then rotates by 11, then XORs; its frame, corner cases and example. -/
def Obligations.RoundCommandRunsOneRound : Prop :=
  encode .round = 0x00000003#32 ∧
  (∀ (t : SboxTable) (l r k : Word), gostRound t (l, r) k = (r ^^^ rotl (subst t (l + k)) 11, l)) ∧
  (∀ s : State, ∃ a b : Word,
    (∀ i : Fin 8, nibble a i.val = s.cfg.sbox[i.val][(nibble (BitVec.ofNat 32 (s.w0.toNat + s.w2.toNat)) i.val).toNat]) ∧
    (∀ i : Fin 32, b.getLsbD ((i.val + 11) % 32) = a.getLsbD i.val) ∧
    exec .round s = .next (s.endsWith (s.w1 ^^^ b) s.w0 [] 0#3)) ∧
  (∀ s : State, s.w0 = 0xFFFFFFFF#32 → s.w2 = 0x00000001#32 → ∃ v : Word,
    exec .round s = .next (s.endsWith v 0xFFFFFFFF#32 [] 0#3) ∧
    exec .round { s with w0 := 0#32, w2 := 0#32 } =
      .next ({ s with w0 := 0#32, w2 := 0#32 }.endsWith v 0#32 [] 0#3)) ∧
  (∀ s : State, s.cfg.sbox = sboxId → s.w0 = 0#32 → s.w1 = 0#32 → s.w2 = 0#32 →
    exec .round s = .next (s.endsWith 0#32 0#32 [] 0#3)) ∧
  (∀ s : State, s.cfg.sbox = sboxGk → s.w0 = 0x12345678#32 → s.w1 = 0x9ABCDEF0#32 → s.w2 = 0x01020304#32 →
    exec .round s = .next (s.endsWith 0xF6C1E178#32 0x12345678#32 [] 0#3))

/-- R80: the three word commands never fail, and ignore KEY and DATA. -/
def Obligations.RoundEngineNeverFails : Prop :=
  ∀ (i : Instr) (s : State), i = .subst ∨ (∃ sh, i = .rotl sh) ∨ i = .round →
    ∃ a b : Word, exec i s = .next (s.endsWith a b [] 0#3) ∧
      ∀ key data : List Byte,
        exec i { s with key := key, data := data } = .next ({ s with key := key, data := data }.endsWith a b [] 0#3)

/-- R87, properties the spec marks as derived: substitution is a bijection per nibble position and on words; rotating back gives
the word; a round is inverted by swapping the halves around it. -/
def Obligations.RoundEngineIsInvertible : Prop :=
  (∀ (c : Config) (i : Fin 8), Function.Bijective fun v : Nibble =>
    nibble (subst c.sbox (v.setWidth 32 <<< (4 * i.val))) i.val) ∧
  (∀ c : Config, Function.Bijective fun x : Word => subst c.sbox x) ∧
  (∀ (x : Word) (s s' : Fin 32), s'.val = (32 - s.val) % 32 → rotl (rotl x s) s' = x) ∧
  (∀ (t : SboxTable) (l r l' r' k : Word), gostRound t (l, r) k = (l', r') →
    l = r' ∧ r = l' ^^^ rotl (subst t (r' + k)) 11 ∧ gostRound t (r', l') k = (r, l))

/-! ## Byte order and buffers -/

/-- R11: the words of bytes and the bytes of words. -/
def Obligations.LittleEndianConversions : Prop :=
  (∀ (n : Nat) (b : Vector Byte n) (a : Nat) (h : a + 4 ≤ n),
    (le32 b a h).toNat = b[a].toNat + 2 ^ 8 * b[a + 1].toNat + 2 ^ 16 * b[a + 2].toNat + 2 ^ 24 * b[a + 3].toNat) ∧
  (∀ w : Word, (toLE32 w).toList.map BitVec.toNat =
    [w.toNat % 256, w.toNat / 2 ^ 8 % 256, w.toNat / 2 ^ 16 % 256, w.toNat / 2 ^ 24]) ∧
  (∀ w : Word, le32 (toLE32 w) 0 (by omega) = w)

/-- R44 and R45: key words and block words are little-endian words of KEY and of a block, in order; a block is written back the
same way. -/
def Obligations.KeyAndBlockWords : Prop :=
  (∀ (key : Key) (j : Fin 8), (keyWord key j).toNat =
    key[4 * j.val].toNat + 2 ^ 8 * key[4 * j.val + 1].toNat + 2 ^ 16 * key[4 * j.val + 2].toNat +
      2 ^ 24 * key[4 * j.val + 3].toNat) ∧
  keyWord (Vector.ofFn fun i => BitVec.ofNat 8 i.val) 0 = 0x03020100#32 ∧
  keyWord (Vector.ofFn fun i => BitVec.ofNat 8 i.val) 7 = 0x1F1E1D1C#32 ∧
  (∀ b : Block,
    (leftHalf b).toNat = b[0].toNat + 2 ^ 8 * b[1].toNat + 2 ^ 16 * b[2].toNat + 2 ^ 24 * b[3].toNat ∧
    (rightHalf b).toNat = b[4].toNat + 2 ^ 8 * b[5].toNat + 2 ^ 16 * b[6].toNat + 2 ^ 24 * b[7].toNat) ∧
  leftHalf #v[0, 1, 2, 3, 4, 5, 6, 7] = 0x03020100#32 ∧
  rightHalf #v[0, 1, 2, 3, 4, 5, 6, 7] = 0x07060504#32 ∧
  (∀ a b : Word, leftHalf (blockOf a b) = a ∧ rightHalf (blockOf a b) = b)

/-- Reads of a buffer and its chunks, byte by byte: chunk c holds the bytes 8c to 8c + 7, in increasing c (R40, R41, R46). The
model's own: an index past the end has no byte and reads as none (log 10); where 8 does not divide the length, the rest is in no
chunk (log 17). -/
def Obligations.BufferReadsAndChunks : Prop :=
  (∀ (b : List Byte) (a n : Nat) (h : a + n ≤ b.length) (j : Nat), j < n → (memRead b a n h)[j]? = b[a + j]?) ∧
  (∀ (s : State) (sp : Space) (a : Nat), s.byteAt sp a = none ↔ (s.buffer sp).length ≤ a) ∧
  (∀ p : List Byte, (chunks p).length = p.length / 8 ∧
    ∀ (c : Nat) (b : Block), (chunks p)[c]? = some b → ∀ j, j < 8 → b[j]? = p[8 * c + j]?)

/-! ## Block Cipher -/

/-- R100 and R101: the two schedules, written out and by formula; and that one is the other read backwards, a sentence the spec
marks as derived (in R102). -/
def Obligations.KeySchedulesAsListed : Prop :=
  (List.ofFn fun j => (ksEnc j).val) =
    [0, 1, 2, 3, 4, 5, 6, 7, 0, 1, 2, 3, 4, 5, 6, 7, 0, 1, 2, 3, 4, 5, 6, 7, 7, 6, 5, 4, 3, 2, 1, 0] ∧
  (List.ofFn fun j => (ksDec j).val) =
    [0, 1, 2, 3, 4, 5, 6, 7, 7, 6, 5, 4, 3, 2, 1, 0, 7, 6, 5, 4, 3, 2, 1, 0, 7, 6, 5, 4, 3, 2, 1, 0] ∧
  (∀ j : Fin 32, (ksEnc j).val = if j.val < 24 then j.val % 8 else 7 - (j.val - 24)) ∧
  (∀ j : Fin 32, (ksDec j).val = if j.val < 8 then j.val else 7 - (j.val - 8) % 8) ∧
  (∀ j j' : Fin 32, j'.val = 31 - j.val → ksDec j = ksEnc j')

/-- R103, R104, R105: the block transform is 32 rounds, each fed with the one before, under the schedule's key words, and the
halves are written R then L. -/
def Obligations.BlockCoreIsThirtyTwoRounds : Prop :=
  (∀ (t : SboxTable) (b : Block) (key : Key) (ks : Fin 32 → Fin 8), ∃ h : Nat → Word × Word,
    h 0 = (le32 b 0 (by omega), le32 b 4 (by omega)) ∧
    (∀ j : Fin 32, h (j.val + 1) = gostRound t (h j.val) (le32 key (4 * (ks j).val) (by omega))) ∧
    (blockCore t b key ks).toList = (toLE32 (h 32).2).toList ++ (toLE32 (h 32).1).toList) ∧
  (∀ (t : SboxTable) (b : Block) (key : Key), encryptBlock t b key = blockCore t b key ksEnc) ∧
  (∀ (t : SboxTable) (b : Block) (key : Key), decryptBlock t b key = blockCore t b key ksDec)

/-- R106: ENC_BLOCK on an accepted key and block; its two errors and their order; its corner cases and example. -/
def Obligations.EncBlockCommandEncryptsBlock : Prop :=
  encode .encBlock = 0x00000004#32 ∧
  (∀ (s : State) (b : Block) (k : Key), s.key = k.toList → s.data = b.toList →
    exec .encBlock s = .next (s.endsWith 0#32 0#32 (encryptBlock s.cfg.sbox b k).toList 0#3) ∧
    (encryptBlock s.cfg.sbox b k).toList.length = 8) ∧
  (∀ s : State, s.key.length ≠ 32 → exec .encBlock s = .next (s.endsWith 0#32 0#32 [] 2#3)) ∧
  (∀ s : State, s.key.length = 32 → s.data.length ≠ 8 → exec .encBlock s = .next (s.endsWith 0#32 0#32 [] 5#3)) ∧
  encryptBlock sboxId (Vector.replicate 8 0#8) (Vector.replicate 32 0#8) = Vector.replicate 8 0#8 ∧
  (∀ (t : SboxTable) (b : Block) (k : Key), (∀ j : Fin 8, keyWord k j = keyWord k 0) →
    encryptBlock t b k = decryptBlock t b k) ∧
  encryptBlock sboxGk #v[0x00, 0x01, 0x02, 0x03, 0x04, 0x05, 0x06, 0x07] (Vector.ofFn fun i => BitVec.ofNat 8 i.val) =
    #v[0xd4, 0x8f, 0x98, 0x74, 0x5d, 0x38, 0xb9, 0xd2]

/-- R107: DEC_BLOCK on an accepted key and block; its two errors and their order; that ENC_BLOCK gives back its input; its
example. -/
def Obligations.DecBlockCommandDecryptsBlock : Prop :=
  encode .decBlock = 0x00000005#32 ∧
  (∀ (s : State) (b : Block) (k : Key), s.key = k.toList → s.data = b.toList →
    exec .decBlock s = .next (s.endsWith 0#32 0#32 (decryptBlock s.cfg.sbox b k).toList 0#3) ∧
    encryptBlock s.cfg.sbox (decryptBlock s.cfg.sbox b k) k = b) ∧
  (∀ s : State, s.key.length ≠ 32 → exec .decBlock s = .next (s.endsWith 0#32 0#32 [] 2#3)) ∧
  (∀ s : State, s.key.length = 32 → s.data.length ≠ 8 → exec .decBlock s = .next (s.endsWith 0#32 0#32 [] 5#3)) ∧
  decryptBlock sboxGk #v[0xd4, 0x8f, 0x98, 0x74, 0x5d, 0x38, 0xb9, 0xd2] (Vector.ofFn fun i => BitVec.ofNat 8 i.val) =
    #v[0x00, 0x01, 0x02, 0x03, 0x04, 0x05, 0x06, 0x07]

/-- R108, which the spec marks as derived: the block round trip, both ways, for every table, key and block. -/
def Obligations.BlockRoundTrip : Prop :=
  ∀ (t : SboxTable) (b : Block) (k : Key),
    decryptBlock t (encryptBlock t b k) k = b ∧ encryptBlock t (decryptBlock t b k) k = b

/-- The block round trip as the host sees it: ENC_BLOCK, copy OUT to DATA, DEC_BLOCK, and the block is in OUT. That the
copy is one whole move is the model's deduction (log 8). -/
def Obligations.EncBlockThenDecBlockRestoresData : Prop :=
  ∀ (s : State) (b : Block) (k : Key), s.phase = .idle → s.key = k.toList → s.data = b.toList →
    ∃ t, runProgram [.command 0x00000004#32, .statement .copyOutToData, .command 0x00000005#32] s = .next t ∧
      t.out = s.data ∧ t.statusCode = 0#3 ∧ t.y0 = 0#32 ∧ t.y1 = 0#32 ∧ t.phase = .idle ∧ t.key = s.key ∧
      t.data = (encryptBlock s.cfg.sbox b k).toList

/-! ## Message Codec -/

/-- R120: the padding, its length, and the length of what it makes. -/
def Obligations.PadAppendsPadLenBytes : Prop :=
  ∀ d : List Byte, ∃ n : Nat, 1 ≤ n ∧ n ≤ 8 ∧ n = 8 - d.length % 8 ∧ n = padLen d.length ∧
    pad d = d ++ List.replicate n (BitVec.ofNat 8 n) ∧
    (pad d).length = 8 * (d.length / 8 + 1) ∧ (pad d).length % 8 = 0 ∧ d.length < (pad d).length

/-- What the strict unpadding accepts, and what it returns; that STRICT selects it (R121). That the reset state's instance is
STRICT, the default of R7, is the model's choice (log 2). -/
def Obligations.UnpadStrictStripsExactPadding : Prop :=
  (∀ p r : List Byte, unpadStrict p = some r ↔
    ∃ n : Nat, 1 ≤ n ∧ n ≤ 8 ∧ p = r ++ List.replicate n (BitVec.ofNat 8 n)) ∧
  (∀ p : List Byte, unpad .strict p = unpadStrict p) ∧
  State.reset.cfg.unpadMode = .strict

/-- R122: what the permissive unpadding accepts, and what it returns; that PERMISSIVE selects it. -/
def Obligations.UnpadPermissiveStripsLastByteMany : Prop :=
  (∀ p r : List Byte, unpadPermissive p = some r ↔
    ∃ (q : List Byte) (last : Byte), p = r ++ q ++ [last] ∧ q.length + 1 = last.toNat) ∧
  (∀ p : List Byte, unpad .permissive p = unpadPermissive p)

/-- R123: the message encryption chunk by chunk; and that a ciphertext chunk depends on its padded chunk and the key alone, a
sentence the spec marks as derived (in R129). -/
def Obligations.EncryptMessageIsEcb : Prop :=
  (∀ (t : SboxTable) (m : List Byte) (k : Key),
    encryptMessage t m k = ((chunks (pad m)).map fun b => (encryptBlock t b k).toList).flatten ∧
    (encryptMessage t m k).length = (pad m).length ∧
    chunks (encryptMessage t m k) = (chunks (pad m)).map fun b => encryptBlock t b k) ∧
  (∀ (t : SboxTable) (m m' : List Byte) (k : Key) (c c' : Nat),
    (chunks (pad m))[c]? = (chunks (pad m'))[c']? →
    (chunks (encryptMessage t m k))[c]? = (chunks (encryptMessage t m' k))[c']?)

/-- R124: where 8 divides the length, the decrypted chunks in order, unpadded. -/
def Obligations.DecryptMessageUnpadsDecryptedChunks : Prop :=
  ∀ (t : SboxTable) (mode : UnpadMode) (x : List Byte) (k : Key), x.length % 8 = 0 →
    ∃ p : List Byte, p.length = x.length ∧ chunks p = ((chunks x).map fun b => decryptBlock t b k) ∧
      decryptMessage t mode x k = unpad mode p

/-- R125: PAD within capacity and beyond it; its corner cases and example. -/
def Obligations.PadCommandPadsData : Prop :=
  encode .pad = 0x00000006#32 ∧
  (∀ s : State, (∀ m, s.cfg.maxMsgBytes = some m → s.data.length + (8 - s.data.length % 8) ≤ m) →
    exec .pad s = .next (s.endsWith 0#32 0#32
      (s.data ++ List.replicate (8 - s.data.length % 8) (BitVec.ofNat 8 (8 - s.data.length % 8))) 0#3)) ∧
  (∀ (s : State) (m : Nat), s.cfg.maxMsgBytes = some m → m < s.data.length + (8 - s.data.length % 8) →
    exec .pad s = .next (s.endsWith 0#32 0#32 [] 3#3)) ∧
  pad [] = List.replicate 8 8#8 ∧
  (∀ d : List Byte, d.length = 7 → pad d = d ++ [1#8]) ∧
  (∀ d : List Byte, d.length = 8 → (pad d).length = 16 ∧ pad d = d ++ List.replicate 8 8#8) ∧
  pad [0x61, 0x62, 0x63] = [0x61, 0x62, 0x63, 0x05, 0x05, 0x05, 0x05, 0x05]

/-- R126: UNPAD within capacity and beyond it, in both modes; its corner cases and example. -/
def Obligations.UnpadCommandStripsPadding : Prop :=
  encode .unpad = 0x00000007#32 ∧
  (∀ (s : State) (m : Nat), s.cfg.maxMsgBytes = some m → m < s.data.length →
    exec .unpad s = .next (s.endsWith 0#32 0#32 [] 3#3)) ∧
  (∀ s : State, (∀ m, s.cfg.maxMsgBytes = some m → s.data.length ≤ m) →
    (∀ r : List Byte, unpad s.cfg.unpadMode s.data = some r → exec .unpad s = .next (s.endsWith 0#32 0#32 r 0#3)) ∧
    (unpad s.cfg.unpadMode s.data = none → exec .unpad s = .next (s.endsWith 0#32 0#32 [] 6#3))) ∧
  (∀ mode : UnpadMode, unpad mode [] = none ∧ unpad mode [0x01] = some [] ∧
    unpad mode (List.replicate 8 8#8) = some [] ∧
    (∀ d : List Byte, unpad mode (d ++ [0x00]) = none) ∧
    unpad mode [0x41, 0x42, 0x43, 0x05, 0x05, 0x05, 0x05, 0x05] = some [0x41, 0x42, 0x43]) ∧
  unpad .strict [0x01, 0x02, 0x03, 0x04, 0x05, 0x06, 0x07, 0x08] = none ∧
  unpad .permissive [0x01, 0x02, 0x03, 0x04, 0x05, 0x06, 0x07, 0x08] = some []

/-- R127: ENC_MSG on an accepted key, within capacity; its two errors and their order; its corner cases and example. -/
def Obligations.EncMsgCommandEncryptsMessage : Prop :=
  encode .encMsg = 0x00000008#32 ∧
  (∀ (s : State) (k : Key), s.key = k.toList →
    (∀ m, s.cfg.maxMsgBytes = some m → s.data.length + (8 - s.data.length % 8) ≤ m) →
    exec .encMsg s = .next (s.endsWith 0#32 0#32 (encryptMessage s.cfg.sbox s.data k) 0#3)) ∧
  (∀ s : State, s.key.length ≠ 32 → exec .encMsg s = .next (s.endsWith 0#32 0#32 [] 2#3)) ∧
  (∀ (s : State) (m : Nat), s.key.length = 32 → s.cfg.maxMsgBytes = some m →
    m < s.data.length + (8 - s.data.length % 8) → exec .encMsg s = .next (s.endsWith 0#32 0#32 [] 3#3)) ∧
  (∀ (t : SboxTable) (k : Key), encryptMessage t [] k = (encryptBlock t (Vector.replicate 8 8#8) k).toList) ∧
  (∀ (t : SboxTable) (k : Key) (m : List Byte), m.length = 3 → (encryptMessage t m k).length = 8) ∧
  (∀ (t : SboxTable) (k : Key) (b : Block), encryptMessage t b.toList k =
    (encryptBlock t b k).toList ++ (encryptBlock t (Vector.replicate 8 8#8) k).toList) ∧
  (∀ (t : SboxTable) (k : Key) (m : List Byte) (c c' : Nat), c < m.length / 8 → c' < m.length / 8 →
    (chunks m)[c]? = (chunks m)[c']? → (chunks (encryptMessage t m k))[c]? = (chunks (encryptMessage t m k))[c']?) ∧
  encryptMessage sboxGk [0x61, 0x62, 0x63]
    #v[0x30, 0x31, 0x32, 0x33, 0x34, 0x35, 0x36, 0x37, 0x38, 0x39, 0x61, 0x62, 0x63, 0x64, 0x65, 0x66,
      0x30, 0x31, 0x32, 0x33, 0x34, 0x35, 0x36, 0x37, 0x38, 0x39, 0x61, 0x62, 0x63, 0x64, 0x65, 0x66] =
    [0x78, 0x64, 0x5a, 0x7b, 0x75, 0x2a, 0xe3, 0x7b]

/-- R128: DEC_MSG on an accepted key; its four errors and their order; its corner cases and example. -/
def Obligations.DecMsgCommandDecryptsMessage : Prop :=
  encode .decMsg = 0x00000009#32 ∧
  (∀ s : State, s.key.length ≠ 32 → exec .decMsg s = .next (s.endsWith 0#32 0#32 [] 2#3)) ∧
  (∀ (s : State) (m : Nat), s.key.length = 32 → s.cfg.maxMsgBytes = some m → m < s.data.length →
    exec .decMsg s = .next (s.endsWith 0#32 0#32 [] 3#3)) ∧
  (∀ (s : State) (k : Key), s.key = k.toList → (∀ m, s.cfg.maxMsgBytes = some m → s.data.length ≤ m) →
    (s.data.length % 8 ≠ 0 → exec .decMsg s = .next (s.endsWith 0#32 0#32 [] 4#3)) ∧
    (s.data.length % 8 = 0 →
      (∀ r : List Byte, decryptMessage s.cfg.sbox s.cfg.unpadMode s.data k = some r →
        exec .decMsg s = .next (s.endsWith 0#32 0#32 r 0#3)) ∧
      (decryptMessage s.cfg.sbox s.cfg.unpadMode s.data k = none →
        exec .decMsg s = .next (s.endsWith 0#32 0#32 [] 6#3)))) ∧
  (∀ s : State, s.key.length = 32 → s.data = [] → exec .decMsg s = .next (s.endsWith 0#32 0#32 [] 6#3)) ∧
  (∀ s : State, s.key.length = 32 → s.data.length = 7 → exec .decMsg s = .next (s.endsWith 0#32 0#32 [] 4#3)) ∧
  (∀ mode : UnpadMode, decryptMessage sboxGk mode [0x78, 0x64, 0x5a, 0x7b, 0x75, 0x2a, 0xe3, 0x7b]
    #v[0x30, 0x31, 0x32, 0x33, 0x34, 0x35, 0x36, 0x37, 0x38, 0x39, 0x61, 0x62, 0x63, 0x64, 0x65, 0x66,
      0x30, 0x31, 0x32, 0x33, 0x34, 0x35, 0x36, 0x37, 0x38, 0x39, 0x61, 0x62, 0x63, 0x64, 0x65, 0x66] =
    some [0x61, 0x62, 0x63])

/-- R130, which the spec marks as derived: the message round trip in both modes, and as the host sees it: ENC_MSG, copy OUT to
DATA, DEC_MSG, and the message is in OUT, provided it fits. That the copy is one whole move is the model's deduction
(log 8). -/
def Obligations.MessageRoundTrip : Prop :=
  (∀ (t : SboxTable) (mode : UnpadMode) (m : List Byte) (k : Key),
    decryptMessage t mode (encryptMessage t m k) k = some m) ∧
  (∀ (s : State) (k : Key), s.phase = .idle → s.key = k.toList →
    (∀ cap, s.cfg.maxMsgBytes = some cap → s.data.length + (8 - s.data.length % 8) ≤ cap) →
    ∃ t, runProgram [.command 0x00000008#32, .statement .copyOutToData, .command 0x00000009#32] s = .next t ∧
      t.out = s.data ∧ t.statusCode = 0#3 ∧ t.y0 = 0#32 ∧ t.y1 = 0#32 ∧ t.phase = .idle ∧ t.key = s.key ∧
      t.data = encryptMessage s.cfg.sbox s.data k)

/-- R131 and R154: the capacity check of the four message commands, its shorter form for padding, that it raises CapacityExceeded
after the key check, and that no other command, and no unbounded instance, raises it. -/
def Obligations.CapacityCheck : Prop :=
  (∀ (c : Config) (m : Nat), c.maxMsgBytes = some m → m % 8 = 0 ∧ 16 ≤ m) ∧
  (∀ (c : Config) (n m : Nat), c.maxMsgBytes = some m →
    (padCapacityExceeded c n = true ↔ m < n + padLen n) ∧
    (padCapacityExceeded c n = true ↔ m ≤ n) ∧
    (unpadCapacityExceeded c n = true ↔ m < n)) ∧
  (∀ (c : Config) (n : Nat), c.maxMsgBytes = none →
    padCapacityExceeded c n = false ∧ unpadCapacityExceeded c n = false) ∧
  (∀ (s : State) (m : Nat), s.cfg.maxMsgBytes = some m →
    (m < s.data.length + padLen s.data.length → exec .pad s = .next (s.endsWith 0#32 0#32 [] 3#3) ∧
      (s.key.length = 32 → exec .encMsg s = .next (s.endsWith 0#32 0#32 [] 3#3))) ∧
    (m < s.data.length → exec .unpad s = .next (s.endsWith 0#32 0#32 [] 3#3) ∧
      (s.key.length = 32 → exec .decMsg s = .next (s.endsWith 0#32 0#32 [] 3#3)))) ∧
  (∀ (i : Instr) (s t : State), exec i s = .next t → t.statusCode = 3#3 →
    (∃ m, s.cfg.maxMsgBytes = some m) ∧ (i = .pad ∨ i = .unpad ∨ i = .encMsg ∨ i = .decMsg)) ∧
  (∀ s t : State, (exec .encBlock s = .next t ∨ exec .decBlock s = .next t) → t.statusCode ≠ 3#3)

/-! ## Errors -/

/-- R151: the codes, that STATUS 7 is never written, and which commands write which. -/
def Obligations.StatusCodesByCommand : Prop :=
  CmdError.code .illegalCommand = 1#3 ∧ CmdError.code .invalidKeyLength = 2#3 ∧
  CmdError.code .capacityExceeded = 3#3 ∧ CmdError.code .invalidBlockAlignment = 4#3 ∧
  CmdError.code .invalidBlockLength = 5#3 ∧ CmdError.code .invalidPadding = 6#3 ∧
  (∀ (i : Instr) (s t : State), exec i s = .next t →
    t.statusCode ∈ (match i with
      | .subst => [0#3]
      | .rotl _ => [0#3]
      | .round => [0#3]
      | .encBlock => [0#3, 2#3, 5#3]
      | .decBlock => [0#3, 2#3, 5#3]
      | .pad => [0#3, 3#3]
      | .unpad => [0#3, 3#3, 6#3]
      | .encMsg => [0#3, 2#3, 3#3]
      | .decMsg => [0#3, 2#3, 3#3, 4#3, 6#3])) ∧
  (∀ (s t : State) (r : IllegalWord), s.phase = .inFlight → decode s.cmd = .error r → step s = .next t →
    t.statusCode = 1#3)

/-- R29: STATUS as the host reads it: the reserved bits are 0 in every state, CODE is at most 6 after every command, no host move
but reset writes it, and reset leaves 0. -/
def Obligations.StatusRegisterLegal : Prop :=
  (∀ s : State, s.status.extractLsb' 3 5 = 0#5 ∧ s.status.extractLsb' 0 3 = s.statusCode) ∧
  (∀ s t : State, s.phase = .inFlight → step s = .next t →
    t.status.toNat ≤ 6 ∧ readStatus t = .next t.status) ∧
  (∀ (m : HostMove) (s t : State), m ≠ .assertReset → hostMove m s = .next t → t.status = s.status) ∧
  State.reset.status = 0x00#8

/-- R153: the four commands that take a key report InvalidKeyLength, first of all, exactly when KLEN is not 32; the others never
do. -/
def Obligations.InvalidKeyLengthRaised : Prop :=
  (∀ (i : Instr) (s : State), i = .encBlock ∨ i = .decBlock ∨ i = .encMsg ∨ i = .decMsg → s.key.length ≠ 32 →
    exec i s = .next (s.endsWith 0#32 0#32 [] 2#3)) ∧
  (∀ (i : Instr) (s t : State), exec i s = .next t → t.statusCode = 2#3 →
    s.key.length ≠ 32 ∧ (i = .encBlock ∨ i = .decBlock ∨ i = .encMsg ∨ i = .decMsg))

/-- R155 and R156: InvalidBlockAlignment and InvalidBlockLength, where the key is accepted and the capacity holds; that no other
command, and no aligned or 8-byte input, reports them. -/
def Obligations.BlockLengthErrorsRaised : Prop :=
  (∀ s : State, s.key.length = 32 → (∀ m, s.cfg.maxMsgBytes = some m → s.data.length ≤ m) → s.data.length % 8 ≠ 0 →
    exec .decMsg s = .next (s.endsWith 0#32 0#32 [] 4#3)) ∧
  (∀ (i : Instr) (s t : State), exec i s = .next t → t.statusCode = 4#3 →
    i = .decMsg ∧ s.data.length % 8 ≠ 0) ∧
  (∀ (i : Instr) (s : State), i = .encBlock ∨ i = .decBlock → s.key.length = 32 → s.data.length ≠ 8 →
    exec i s = .next (s.endsWith 0#32 0#32 [] 5#3)) ∧
  (∀ (i : Instr) (s t : State), exec i s = .next t → t.statusCode = 5#3 →
    (i = .encBlock ∨ i = .decBlock) ∧ s.data.length ≠ 8)

/-- R157: InvalidPadding where `unpad` fails, on DATA in UNPAD and on the decrypted sequence in DEC_MSG, once the earlier checks
have passed; and nowhere else. -/
def Obligations.InvalidPaddingRaised : Prop :=
  (∀ s : State, (∀ m, s.cfg.maxMsgBytes = some m → s.data.length ≤ m) → unpad s.cfg.unpadMode s.data = none →
    exec .unpad s = .next (s.endsWith 0#32 0#32 [] 6#3)) ∧
  (∀ (s : State) (k : Key) (p : List Byte), s.key = k.toList →
    (∀ m, s.cfg.maxMsgBytes = some m → s.data.length ≤ m) → s.data.length % 8 = 0 →
    p.length = s.data.length → chunks p = ((chunks s.data).map fun b => decryptBlock s.cfg.sbox b k) →
    unpad s.cfg.unpadMode p = none → exec .decMsg s = .next (s.endsWith 0#32 0#32 [] 6#3)) ∧
  (∀ (i : Instr) (s t : State), exec i s = .next t → t.statusCode = 6#3 →
    (i = .unpad ∧ unpad s.cfg.unpadMode s.data = none) ∨
    (i = .decMsg ∧ s.data.length % 8 = 0 ∧ ∃ k : Key, s.key = k.toList ∧
      decryptMessage s.cfg.sbox s.cfg.unpadMode s.data k = none))

/-- R158 and R159: a command reports success where no error applies, and otherwise the first of those that apply, with the error
outcome and nothing else. -/
def Obligations.FirstApplicableErrorIsReported : Prop :=
  (∀ (i : Instr) (s : State), ∃ t, exec i s = .next t ∧
    ((t.statusCode = 0#3 ∧ ∀ e, ¬ ErrorApplies i s e) ∨
      (∃ e, ErrorApplies i s e ∧ (∀ e', ErrorApplies i s e' → e' = e ∨ e.place < e'.place) ∧
        t = s.endsWith 0#32 0#32 [] e.code))) ∧
  (∀ s : State, s.phase = .inFlight → (∃ r, decode s.cmd = .error r) →
    step s = .next (s.endsWith 0#32 0#32 [] (CmdError.code .illegalCommand)))

/-! ## Reset and the host -/

/-- R35: the state right after reset; and that reset leaves the table, and the whole configuration, of any instance unchanged. -/
def Obligations.ResetState : Prop :=
  (∀ s t : State, hostMove .assertReset s = .next t → t.cfg = s.cfg) ∧
  State.reset.phase = .idle ∧
  State.reset.w0 = 0#32 ∧ State.reset.w1 = 0#32 ∧ State.reset.w2 = 0#32 ∧
  State.reset.key = [] ∧ State.reset.data = [] ∧
  State.reset.y0 = 0#32 ∧ State.reset.y1 = 0#32 ∧ State.reset.out = [] ∧ State.reset.status = 0x00#8

/-- R170 and R172: reset from any state, a command in flight among them, gives the reset values and keeps the configuration; the
command does not run when reset is released (the model's deduction: log 4, log 5); writes of CMD while reset is held issue
nothing. -/
def Obligations.ResetAbandonsCommand : Prop :=
  (∀ s : State, ∃ t, hostMove .assertReset s = .next t ∧
    t.w0 = 0#32 ∧ t.w1 = 0#32 ∧ t.w2 = 0#32 ∧ t.key = [] ∧ t.data = [] ∧
    t.y0 = 0#32 ∧ t.y1 = 0#32 ∧ t.out = [] ∧ t.status = 0x00#8 ∧ t.cfg = s.cfg ∧ t.phase = .resetHeld ∧
    step t = .next t ∧ hostMove .releaseReset t = .next { t with phase := .idle } ∧
    step { t with phase := .idle } = .next { t with phase := .idle }) ∧
  (∀ (s : State) (w : Word), s.phase = .resetHeld → hostMove (.issue w) s = .next s)

/-- A host write sets its own input and nothing else when the block is idle; a write of CMD puts the command in flight; and each
is refused by name while a command is in flight, which is how 93_implementation_defined.md I6 has a model treat a host that
breaks a duty of R177 (log 6). -/
def Obligations.HostWritesAndDuties : Prop :=
  (∀ (s : State) (v : Word) (bytes : List Byte), s.phase = .idle →
    hostMove (.setW0 v) s = .next { s with w0 := v } ∧ hostMove (.setW1 v) s = .next { s with w1 := v } ∧
    hostMove (.setW2 v) s = .next { s with w2 := v } ∧ hostMove (.setKey bytes) s = .next { s with key := bytes } ∧
    hostMove (.setData bytes) s = .next { s with data := bytes } ∧
    hostMove (.issue v) s = .next { s with cmd := v, phase := .inFlight }) ∧
  (∀ (s : State) (v : Word) (bytes : List Byte), s.phase = .inFlight →
    hostMove (.issue v) s = .refused .commandInFlight ∧
    hostMove (.setW0 v) s = .refused .inputChangedInFlight ∧ hostMove (.setW1 v) s = .refused .inputChangedInFlight ∧
    hostMove (.setW2 v) s = .refused .inputChangedInFlight ∧
    hostMove (.setKey bytes) s = .refused .inputChangedInFlight ∧
    hostMove (.setData bytes) s = .refused .inputChangedInFlight ∧
    hostMove .copyOutToData s = .refused .inputChangedInFlight)

/-- Results stay as the last completed command left them: no host move but reset changes them, and neither does a step without a
command in flight (R50). -/
def Obligations.ResultsPersistUntilNextCompletion : Prop :=
  (∀ (m : HostMove) (s t : State), m ≠ .assertReset → hostMove m s = .next t → SameResults t s) ∧
  (∀ s t : State, s.phase ≠ .inFlight → step s = .next t → SameResults t s)

/-- The invariant of the result registers is kept by every step (R29, R131, R159, R27, R28). -/
def Obligations.StepKeepsResultInvariant : Prop :=
  ∀ s t : State, s.Inv → step s = .next t → t.Inv

/-- The invariant is kept by every host move. -/
def Obligations.HostMovesKeepResultInvariant : Prop :=
  ∀ (m : HostMove) (s t : State), s.Inv → hostMove m s = .next t → t.Inv

/-- The invariant holds at reset, of the built instance and of every other. -/
def Obligations.ResetHasResultInvariant : Prop :=
  State.reset.Inv ∧ ∀ (c : Config) (p : Phase), (State.cleared c p).Inv

/-- From every state in the invariant, a run of any length neither faults nor is refused, and ends in the invariant. -/
def Obligations.EveryRunIsSafe : Prop :=
  ∀ (s : State) (k : Nat), s.Inv → s.SafeFor k

/-- A move of one instance leaves every other as it was, and does to its own what it would do alone (R164; log 14). -/
def Obligations.InstancesAreIndependent : Prop :=
  ∀ (m : SystemMove) (cores cores' : List State), systemMove m cores = some (.next cores') →
    cores'.length = cores.length ∧
    (∀ k : Nat, k ≠ m.target → cores'[k]? = cores[k]?) ∧
    (∃ s t, cores[m.target]? = some s ∧ m.apply s = .next t ∧ cores'[m.target]? = some t) ∧
    (∀ others : List State, others[m.target]? = cores[m.target]? →
      ∃ others', systemMove m others = some (.next others') ∧ others'[m.target]? = cores'[m.target]?)

/-! ## Assembler -/

/-- R69, whose inverse property the spec marks as derived: the disassembler prints a legal word in R67's syntax and any other as
`.word` with eight uppercase digits; assembling what it prints gives back the word, for the legal words and for `.word` lines
alike. That ROTL's amount is printed in decimal, where R67 allows hexadecimal too, and the spaces and letter case of the lines,
are the model's choice (log 12). -/
def Obligations.AssembleOfDisassemble : Prop :=
  disassemble 0x00000001#32 = "SUBST".toList ∧
  (∀ sh : BitVec 5, disassemble (0x00000002#32 ||| (sh.setWidth 32 <<< 4)) = "ROTL #".toList ++ decText sh.toNat) ∧
  disassemble 0x00000003#32 = "ROUND".toList ∧
  disassemble 0x00000004#32 = "ENC_BLOCK".toList ∧
  disassemble 0x00000005#32 = "DEC_BLOCK".toList ∧
  disassemble 0x00000006#32 = "PAD".toList ∧
  disassemble 0x00000007#32 = "UNPAD".toList ∧
  disassemble 0x00000008#32 = "ENC_MSG".toList ∧
  disassemble 0x00000009#32 = "DEC_MSG".toList ∧
  (∀ w : Word, assembleLine (disassemble w) = some (.command w)) ∧
  (∀ w : Word, (∃ r, decode w = .error r) → ∃ digits : List Char,
    disassemble w = ".word 0x".toList ++ digits ∧ digits.length = 8 ∧
    ∀ c ∈ digits, c ∈ "0123456789ABCDEF".toList)

/-- The lines of R67's table, ROTL at every decimal amount, and lines the assembler refuses (R67). Spaces and letter
case are the model's choice (log 12). -/
def Obligations.AssemblerTable : Prop :=
  assembleLine "SUBST".toList = some (.command 0x00000001#32) ∧
  (∀ sh : BitVec 5, assembleLine ("ROTL #".toList ++ decText sh.toNat) =
    some (.command (0x00000002#32 ||| (sh.setWidth 32 <<< 4)))) ∧
  assembleLine "ROTL #0x1F".toList = some (.command 0x000001F2#32) ∧
  assembleLine "ROUND".toList = some (.command 0x00000003#32) ∧
  assembleLine "ENC_BLOCK".toList = some (.command 0x00000004#32) ∧
  assembleLine "DEC_BLOCK".toList = some (.command 0x00000005#32) ∧
  assembleLine "PAD".toList = some (.command 0x00000006#32) ∧
  assembleLine "UNPAD".toList = some (.command 0x00000007#32) ∧
  assembleLine "ENC_MSG".toList = some (.command 0x00000008#32) ∧
  assembleLine "DEC_MSG".toList = some (.command 0x00000009#32) ∧
  assembleLine ".word 0x80000004".toList = some (.command 0x80000004#32) ∧
  assembleLine "ROTL #32".toList = none ∧
  assembleLine "PAD #1".toList = none ∧
  assembleLine "ROTR #1".toList = none
end

