-- ==== Sys2Proof/Laws/State.lean ====
section
/-! SUPPORT. One lemma per field per update of State, true by rfl, so that no later proof unfolds a record update. -/

namespace Sys2Proof.Machine

@[simp] theorem State.succeed_cfg (s : State) (r : Results) : (s.succeed r).cfg = s.cfg := rfl
@[simp] theorem State.succeed_cmd (s : State) (r : Results) : (s.succeed r).cmd = s.cmd := rfl
@[simp] theorem State.succeed_phase (s : State) (r : Results) : (s.succeed r).phase = .idle := rfl
@[simp] theorem State.succeed_w0 (s : State) (r : Results) : (s.succeed r).w0 = s.w0 := rfl
@[simp] theorem State.succeed_w1 (s : State) (r : Results) : (s.succeed r).w1 = s.w1 := rfl
@[simp] theorem State.succeed_w2 (s : State) (r : Results) : (s.succeed r).w2 = s.w2 := rfl
@[simp] theorem State.succeed_key (s : State) (r : Results) : (s.succeed r).key = s.key := rfl
@[simp] theorem State.succeed_data (s : State) (r : Results) : (s.succeed r).data = s.data := rfl
@[simp] theorem State.succeed_y0 (s : State) (r : Results) : (s.succeed r).y0 = r.y0 := rfl
@[simp] theorem State.succeed_y1 (s : State) (r : Results) : (s.succeed r).y1 = r.y1 := rfl
@[simp] theorem State.succeed_out (s : State) (r : Results) : (s.succeed r).out = r.out := rfl
@[simp] theorem State.succeed_statusCode (s : State) (r : Results) : (s.succeed r).statusCode = codeOk := rfl

@[simp] theorem State.raiseError_cfg (s : State) (e : CmdError) : (s.raiseError e).cfg = s.cfg := rfl
@[simp] theorem State.raiseError_cmd (s : State) (e : CmdError) : (s.raiseError e).cmd = s.cmd := rfl
@[simp] theorem State.raiseError_phase (s : State) (e : CmdError) : (s.raiseError e).phase = .idle := rfl
@[simp] theorem State.raiseError_w0 (s : State) (e : CmdError) : (s.raiseError e).w0 = s.w0 := rfl
@[simp] theorem State.raiseError_w1 (s : State) (e : CmdError) : (s.raiseError e).w1 = s.w1 := rfl
@[simp] theorem State.raiseError_w2 (s : State) (e : CmdError) : (s.raiseError e).w2 = s.w2 := rfl
@[simp] theorem State.raiseError_key (s : State) (e : CmdError) : (s.raiseError e).key = s.key := rfl
@[simp] theorem State.raiseError_data (s : State) (e : CmdError) : (s.raiseError e).data = s.data := rfl
@[simp] theorem State.raiseError_y0 (s : State) (e : CmdError) : (s.raiseError e).y0 = 0#32 := rfl
@[simp] theorem State.raiseError_y1 (s : State) (e : CmdError) : (s.raiseError e).y1 = 0#32 := rfl
@[simp] theorem State.raiseError_out (s : State) (e : CmdError) : (s.raiseError e).out = [] := rfl
@[simp] theorem State.raiseError_statusCode (s : State) (e : CmdError) : (s.raiseError e).statusCode = e.code := rfl

@[simp] theorem State.withCommand_cfg (s : State) (w : Word) : (s.withCommand w).cfg = s.cfg := rfl
@[simp] theorem State.withCommand_cmd (s : State) (w : Word) : (s.withCommand w).cmd = w := rfl
@[simp] theorem State.withCommand_phase (s : State) (w : Word) : (s.withCommand w).phase = .inFlight := rfl
@[simp] theorem State.withCommand_w0 (s : State) (w : Word) : (s.withCommand w).w0 = s.w0 := rfl
@[simp] theorem State.withCommand_w1 (s : State) (w : Word) : (s.withCommand w).w1 = s.w1 := rfl
@[simp] theorem State.withCommand_w2 (s : State) (w : Word) : (s.withCommand w).w2 = s.w2 := rfl
@[simp] theorem State.withCommand_key (s : State) (w : Word) : (s.withCommand w).key = s.key := rfl
@[simp] theorem State.withCommand_data (s : State) (w : Word) : (s.withCommand w).data = s.data := rfl
@[simp] theorem State.withCommand_y0 (s : State) (w : Word) : (s.withCommand w).y0 = s.y0 := rfl
@[simp] theorem State.withCommand_y1 (s : State) (w : Word) : (s.withCommand w).y1 = s.y1 := rfl
@[simp] theorem State.withCommand_out (s : State) (w : Word) : (s.withCommand w).out = s.out := rfl
@[simp] theorem State.withCommand_statusCode (s : State) (w : Word) : (s.withCommand w).statusCode = s.statusCode := rfl

@[simp] theorem State.endsWith_cfg (s : State) (y0 y1 : Word) (out : List Byte) (code : BitVec 3) : (s.endsWith y0 y1 out code).cfg = s.cfg := rfl
@[simp] theorem State.endsWith_cmd (s : State) (y0 y1 : Word) (out : List Byte) (code : BitVec 3) : (s.endsWith y0 y1 out code).cmd = s.cmd := rfl
@[simp] theorem State.endsWith_phase (s : State) (y0 y1 : Word) (out : List Byte) (code : BitVec 3) : (s.endsWith y0 y1 out code).phase = .idle := rfl
@[simp] theorem State.endsWith_w0 (s : State) (y0 y1 : Word) (out : List Byte) (code : BitVec 3) : (s.endsWith y0 y1 out code).w0 = s.w0 := rfl
@[simp] theorem State.endsWith_w1 (s : State) (y0 y1 : Word) (out : List Byte) (code : BitVec 3) : (s.endsWith y0 y1 out code).w1 = s.w1 := rfl
@[simp] theorem State.endsWith_w2 (s : State) (y0 y1 : Word) (out : List Byte) (code : BitVec 3) : (s.endsWith y0 y1 out code).w2 = s.w2 := rfl
@[simp] theorem State.endsWith_key (s : State) (y0 y1 : Word) (out : List Byte) (code : BitVec 3) : (s.endsWith y0 y1 out code).key = s.key := rfl
@[simp] theorem State.endsWith_data (s : State) (y0 y1 : Word) (out : List Byte) (code : BitVec 3) : (s.endsWith y0 y1 out code).data = s.data := rfl
@[simp] theorem State.endsWith_y0 (s : State) (y0 y1 : Word) (out : List Byte) (code : BitVec 3) : (s.endsWith y0 y1 out code).y0 = y0 := rfl
@[simp] theorem State.endsWith_y1 (s : State) (y0 y1 : Word) (out : List Byte) (code : BitVec 3) : (s.endsWith y0 y1 out code).y1 = y1 := rfl
@[simp] theorem State.endsWith_out (s : State) (y0 y1 : Word) (out : List Byte) (code : BitVec 3) : (s.endsWith y0 y1 out code).out = out := rfl
@[simp] theorem State.endsWith_statusCode (s : State) (y0 y1 : Word) (out : List Byte) (code : BitVec 3) : (s.endsWith y0 y1 out code).statusCode = code := rfl

@[simp] theorem State.cleared_cfg (c : Config) (p : Phase) : (State.cleared c p).cfg = c := rfl
@[simp] theorem State.cleared_cmd (c : Config) (p : Phase) : (State.cleared c p).cmd = 0#32 := rfl
@[simp] theorem State.cleared_phase (c : Config) (p : Phase) : (State.cleared c p).phase = p := rfl
@[simp] theorem State.cleared_w0 (c : Config) (p : Phase) : (State.cleared c p).w0 = 0#32 := rfl
@[simp] theorem State.cleared_w1 (c : Config) (p : Phase) : (State.cleared c p).w1 = 0#32 := rfl
@[simp] theorem State.cleared_w2 (c : Config) (p : Phase) : (State.cleared c p).w2 = 0#32 := rfl
@[simp] theorem State.cleared_key (c : Config) (p : Phase) : (State.cleared c p).key = [] := rfl
@[simp] theorem State.cleared_data (c : Config) (p : Phase) : (State.cleared c p).data = [] := rfl
@[simp] theorem State.cleared_y0 (c : Config) (p : Phase) : (State.cleared c p).y0 = 0#32 := rfl
@[simp] theorem State.cleared_y1 (c : Config) (p : Phase) : (State.cleared c p).y1 = 0#32 := rfl
@[simp] theorem State.cleared_out (c : Config) (p : Phase) : (State.cleared c p).out = [] := rfl
@[simp] theorem State.cleared_statusCode (c : Config) (p : Phase) : (State.cleared c p).statusCode = 0#3 := rfl

@[simp] theorem State.complete_ok (s : State) (r : Results) : s.complete (.ok r) = s.succeed r := rfl
@[simp] theorem State.complete_error (s : State) (e : CmdError) : s.complete (.error e) = s.raiseError e := rfl

@[simp] theorem State.complete_cfg (s : State) (o : Except CmdError Results) : (s.complete o).cfg = s.cfg := by
  cases o <;> rfl
@[simp] theorem State.complete_cmd (s : State) (o : Except CmdError Results) : (s.complete o).cmd = s.cmd := by
  cases o <;> rfl
@[simp] theorem State.complete_w0 (s : State) (o : Except CmdError Results) : (s.complete o).w0 = s.w0 := by
  cases o <;> rfl
@[simp] theorem State.complete_w1 (s : State) (o : Except CmdError Results) : (s.complete o).w1 = s.w1 := by
  cases o <;> rfl
@[simp] theorem State.complete_w2 (s : State) (o : Except CmdError Results) : (s.complete o).w2 = s.w2 := by
  cases o <;> rfl
@[simp] theorem State.complete_key (s : State) (o : Except CmdError Results) : (s.complete o).key = s.key := by
  cases o <;> rfl
@[simp] theorem State.complete_data (s : State) (o : Except CmdError Results) : (s.complete o).data = s.data := by
  cases o <;> rfl
@[simp] theorem State.complete_phase (s : State) (o : Except CmdError Results) : (s.complete o).phase = .idle := by
  cases o <;> rfl

theorem State.succeed_eq_endsWith (s : State) (r : Results) : s.succeed r = s.endsWith r.y0 r.y1 r.out codeOk := rfl

theorem State.raiseError_eq_endsWith (s : State) (e : CmdError) : s.raiseError e = s.endsWith 0#32 0#32 [] e.code := rfl

end Sys2Proof.Machine
end

