-- ==== Sys2Proof/Laws/Operands.lean ====
section
/-! SUPPORT. What the operand reads do: buffer reads, chunks, and the canonical form of a buffer as cells. -/

namespace Sys2Proof.Machine

theorem memRead_toList (b : List Byte) (a n : Nat) (h : a + n ≤ b.length) :
    (memRead b a n h).toList = (b.drop a).take n := rfl

/-- A read of the whole of a buffer that holds a vector gives that vector. -/
theorem memRead_whole {n : Nat} (v : Vector Byte n) (h : 0 + n ≤ v.toList.length) :
    memRead v.toList 0 n h = v := by
  apply Vector.toList_inj.mp
  rw [memRead_toList, List.drop_zero, List.take_of_length_le (by simp)]

/-- A read inside the second part of a buffer. -/
theorem memRead_append_right (p q : List Byte) (a n : Nat) (h : p.length + a + n ≤ (p ++ q).length)
    (h' : a + n ≤ q.length) : memRead (p ++ q) (p.length + a) n h = memRead q a n h' := by
  apply Vector.toList_inj.mp
  rw [memRead_toList, memRead_toList, List.drop_append, List.drop_of_length_le (by omega), List.nil_append,
    Nat.add_sub_cancel_left]

/-- A read that fills the first part of a buffer. -/
theorem memRead_append_left {n : Nat} (v : Vector Byte n) (q : List Byte) (h : 0 + n ≤ (v.toList ++ q).length) :
    memRead (v.toList ++ q) 0 n h = v := by
  apply Vector.toList_inj.mp
  rw [memRead_toList, List.drop_zero, List.take_append_of_le_length (by simp), List.take_of_length_le (by simp)]

theorem chunks_length (s : List Byte) : (chunks s).length = s.length / 8 := by simp [chunks]

theorem chunks_of_short (s : List Byte) (h : s.length < 8) : chunks s = [] := by
  apply List.eq_nil_of_length_eq_zero
  rw [chunks_length]; omega

/-- The first chunk of a sequence that begins with a block is that block. -/
theorem chunks_block_append (b : Block) (s : List Byte) : chunks (b.toList ++ s) = b :: chunks s := by
  apply List.ext_getElem
  · simp only [chunks_length, List.length_cons, List.length_append, Vector.length_toList]; omega
  · intro c h₁ h₂
    cases c with
    | zero => simpa [chunks] using memRead_append_left b s _
    | succ c =>
      have hc : c < s.length / 8 := by simpa [chunks_length] using h₂
      simp only [chunks, List.getElem_ofFn, List.getElem_cons_succ]
      apply Vector.toList_inj.mp
      simp only [memRead_toList]
      rw [show 8 * (c + 1) = b.toList.length + 8 * c by simp; omega, List.drop_append, List.drop_of_length_le (by omega)]
      simp

/-- The chunks of blocks laid end to end are the blocks. -/
theorem chunks_flatMap (bs : List Block) : chunks (bs.flatMap Vector.toList) = bs := by
  induction bs with
  | nil => rfl
  | cons b bs ih => rw [List.flatMap_cons, chunks_block_append, ih]

/-- Where 8 divides the length, the chunks laid end to end are the sequence: nothing is dropped. -/
theorem flatMap_chunks (s : List Byte) (h : s.length % 8 = 0) : (chunks s).flatMap Vector.toList = s := by
  induction hn : s.length / 8 generalizing s with
  | zero =>
    have : s = [] := List.eq_nil_of_length_eq_zero (by omega)
    subst this; rfl
  | succ n ih =>
    have hs : 0 + 8 ≤ s.length := by omega
    have hsplit : (memRead s 0 8 hs).toList ++ s.drop 8 = s := by
      rw [memRead_toList, List.drop_zero, List.take_append_drop]
    conv_lhs => rw [← hsplit]
    rw [chunks_block_append, List.flatMap_cons, ih (s.drop 8) (by simp; omega) (by simp; omega), hsplit]

/-- Every buffer, as cells, has the canonical form. -/
theorem bufferCells_wf (b : List Byte) : Memory.wf (bufferCells b) = true := by
  simp only [Memory.wf, bufferCells, List.map_map, List.length_map, List.length_zipIdx, beq_iff_eq]
  rw [show (Prod.fst ∘ fun p : Byte × Nat => ((p.2, p.1) : Host.Cell)) = Prod.snd from rfl, List.zipIdx_map_snd]
  simp [List.range_eq_range']

/-- Equal cells are equal buffers. -/
theorem bufferCells_injective (b b' : List Byte) (h : bufferCells b = bufferCells b') : b = b' := by
  have h2 : (bufferCells b).map Prod.snd = (bufferCells b').map Prod.snd := by rw [h]
  simpa [bufferCells, List.map_map, Function.comp_def, List.zipIdx_map_fst] using h2

/-- The three buffers of every state have the canonical form, so every operation keeps it. -/
theorem buffers_wf (s : State) (sp : Space) : Memory.wf (bufferCells (s.buffer sp)) = true := bufferCells_wf _

end Sys2Proof.Machine
end

