-- ==== Sys2Proof/Laws/Ops.lean ====
section
/-! SUPPORT. What a completion can do, said once, and that each command's meaning is a completion. -/

namespace Sys2Proof.Machine

/-- A completion is a success or the error outcome, and nothing else. -/
theorem State.complete_cases (s t : State) (o : Except CmdError Results) (h : s.complete o = t) :
    (∃ r, o = .ok r ∧ t = s.endsWith r.y0 r.y1 r.out 0#3) ∨
    (∃ e, o = .error e ∧ t = s.endsWith 0#32 0#32 [] e.code) := by
  subst h
  cases o with
  | ok r => exact .inl ⟨r, rfl, rfl⟩
  | error e => exact .inr ⟨e, rfl, rfl⟩

/-- The error codes are 1 to 6. -/
theorem CmdError.code_range (e : CmdError) : e.code ≠ 0#3 ∧ e.code ≠ 7#3 := by
  cases e <;> decide

theorem exec_subst_eq (s : State) :
    exec .subst s = .next (s.endsWith (subst s.cfg.sbox s.w0) 0#32 [] 0#3) := rfl

theorem exec_rotl_eq (sh : BitVec 5) (s : State) :
    exec (.rotl sh) s = .next (s.endsWith (rotl s.w0 ⟨sh.toNat, sh.isLt⟩) 0#32 [] 0#3) := rfl

theorem exec_round_eq (s : State) :
    exec .round s = .next (s.endsWith (s.w1 ^^^ roundMask s.cfg.sbox s.w0 s.w2) s.w0 [] 0#3) := rfl

theorem exec_encBlock_eq (s : State) :
    exec .encBlock s = .next (s.complete (blockOutcome s (encryptBlock s.cfg.sbox))) := rfl

theorem exec_decBlock_eq (s : State) :
    exec .decBlock s = .next (s.complete (blockOutcome s (decryptBlock s.cfg.sbox))) := rfl

theorem exec_pad_eq (s : State) : exec .pad s = .next (s.complete (padOutcome s)) := rfl

theorem exec_unpad_eq (s : State) : exec .unpad s = .next (s.complete (unpadDataOutcome s)) := rfl

theorem exec_encMsg_eq (s : State) : exec .encMsg s = .next (s.complete (encMsgOutcome s)) := rfl

theorem exec_decMsg_eq (s : State) : exec .decMsg s = .next (s.complete (decMsgOutcome s)) := rfl

/-- The outcome of the block commands on an accepted key and block. -/
theorem blockOutcome_ok (s : State) (f : Block → Key → Block) (b : Block) (k : Key) (hk : s.key = k.toList)
    (hd : s.data = b.toList) : blockOutcome s f = .ok (Results.bytes (f b k).toList) := by
  have hkl : s.key.length = 32 := by simp [hk]
  have hdl : s.data.length = 8 := by simp [hd]
  have h1 : memRead s.data 0 8 (by omega) = b := by simp only [hd]; exact memRead_whole b _
  have h2 : memRead s.key 0 32 (by omega) = k := by simp only [hk]; exact memRead_whole k _
  simp only [blockOutcome, hkl, hdl, dif_pos, h1, h2]

/-- The outcome of ENC_MSG on an accepted key. -/
theorem encMsgOutcome_key (s : State) (k : Key) (hk : s.key = k.toList) :
    encMsgOutcome s =
      if padCapacityExceeded s.cfg s.data.length then .error .capacityExceeded
      else .ok (Results.bytes (encryptMessage s.cfg.sbox s.data k)) := by
  have hkl : s.key.length = 32 := by simp [hk]
  have h2 : memRead s.key 0 32 (by omega) = k := by simp only [hk]; exact memRead_whole k _
  simp only [encMsgOutcome, hkl, dif_pos, h2]

/-- The outcome of DEC_MSG on an accepted key. -/
theorem decMsgOutcome_key (s : State) (k : Key) (hk : s.key = k.toList) :
    decMsgOutcome s =
      if unpadCapacityExceeded s.cfg s.data.length then .error .capacityExceeded
      else if s.data.length % 8 ≠ 0 then .error .invalidBlockAlignment
      else unpadOutcome (decryptMessage s.cfg.sbox s.cfg.unpadMode s.data k) := by
  have hkl : s.key.length = 32 := by simp [hk]
  have h2 : memRead s.key 0 32 (by omega) = k := by simp only [hk]; exact memRead_whole k _
  simp only [decMsgOutcome, hkl, dif_pos, h2]

/-- Any other key is refused before anything else is read. -/
theorem blockOutcome_badKey (s : State) (f : Block → Key → Block) (h : s.key.length ≠ 32) :
    blockOutcome s f = .error .invalidKeyLength := by simp [blockOutcome, h]

theorem encMsgOutcome_badKey (s : State) (h : s.key.length ≠ 32) :
    encMsgOutcome s = .error .invalidKeyLength := by simp [encMsgOutcome, h]

theorem decMsgOutcome_badKey (s : State) (h : s.key.length ≠ 32) :
    decMsgOutcome s = .error .invalidKeyLength := by simp [decMsgOutcome, h]

/-- A sequence of 32 bytes is a key. -/
theorem exists_key (l : List Byte) (h : l.length = 32) : ∃ k : Key, l = k.toList := ⟨⟨l.toArray, by simpa using h⟩, rfl⟩

/-- A sequence of 8 bytes is a block. -/
theorem exists_block (l : List Byte) (h : l.length = 8) : ∃ b : Block, l = b.toList := ⟨⟨l.toArray, by simpa using h⟩, rfl⟩

/-- Every command's meaning is a completion of the state it is issued in. -/
theorem exec_answers_completion (i : Instr) (s : State) : ∃ o, exec i s = .next (s.complete o) := by
  cases i with
  | subst => exact ⟨_, rfl⟩
  | rotl sh => exact ⟨_, rfl⟩
  | round => exact ⟨_, rfl⟩
  | encBlock => exact ⟨_, rfl⟩
  | decBlock => exact ⟨_, rfl⟩
  | pad => exact ⟨_, rfl⟩
  | unpad => exact ⟨_, rfl⟩
  | encMsg => exact ⟨_, rfl⟩
  | decMsg => exact ⟨_, rfl⟩

/-- What a step can do: wait, complete the decoded command, or end an illegal word. -/
theorem step_cases (s : State) :
    (s.phase ≠ .inFlight ∧ step s = .next s) ∨
    (s.phase = .inFlight ∧ ∃ i, decode s.cmd = .ok i ∧ step s = exec i s) ∨
    (s.phase = .inFlight ∧ (∃ r, decode s.cmd = .error r) ∧ step s = .next (s.raiseError .illegalCommand)) := by
  cases hp : s.phase with
  | resetHeld => exact .inl ⟨by simp, by simp [step, hp]⟩
  | idle => exact .inl ⟨by simp, by simp [step, hp]⟩
  | inFlight =>
    cases hd : decode s.cmd with
    | ok i => exact .inr (.inl ⟨rfl, i, rfl, by simp [step, hp, hd]⟩)
    | error r => exact .inr (.inr ⟨rfl, ⟨r, rfl⟩, by simp [step, hp, hd, illegalCommandOutcome]⟩)

end Sys2Proof.Machine
end

