-- ==== Sys2Proof/Laws/HostMoves.lean ====
section
/-! SUPPORT. Host moves, transactions and host programs, one line at a time. -/

namespace Sys2Proof.Machine

/-- A line that answers next is followed by the rest of the program. -/
theorem runProgram_cons_next {l : HostLine} {ls : List HostLine} {s t : State} (h : runLine l s = .next t) :
    runProgram (l :: ls) s = runProgram ls t := by simp [runProgram, h]

/-- A transaction on an idle block is the meaning of the command the word decodes to. -/
theorem transact_idle {s : State} {w : Word} {i : Instr} (h : s.phase = .idle) (hd : decode w = .ok i) :
    transact w s = exec i (s.withCommand w) := by
  simp [transact, hostMove, writeCmd, h, step, hd]

/-- A transaction on an idle block with a word that does not decode. -/
theorem transact_illegal {s : State} {w : Word} {r : IllegalWord} (h : s.phase = .idle) (hd : decode w = .error r) :
    transact w s = .next ((s.withCommand w).raiseError .illegalCommand) := by
  simp [transact, hostMove, writeCmd, h, step, hd, illegalCommandOutcome]

/-- What a write of an input can do: its effect on an idle block, else a refusal. -/
theorem writeInput_next {s t u : State} (h : writeInput s t = .next u) : s.phase = .idle ∧ u = t := by
  unfold writeInput at h
  split at h <;> simp_all

/-- What a write of CMD can do: put the command in flight on an idle block, or nothing while reset is held. -/
theorem writeCmd_next {w : Word} {s u : State} (h : writeCmd w s = .next u) :
    (s.phase = .idle ∧ u = s.withCommand w) ∨ (s.phase = .resetHeld ∧ u = s) := by
  unfold writeCmd at h
  split at h <;> simp_all

/-- What a host move can do, said once. -/
theorem hostMove_next {m : HostMove} {s t : State} (h : hostMove m s = .next t) :
    (m = .assertReset ∧ t = assertReset s) ∨ (m = .releaseReset ∧ t = releaseReset s) ∨
    (∃ w, m = .issue w ∧ s.phase = .resetHeld ∧ t = s) ∨
    (s.phase = .idle ∧
      ((∃ v, m = .setW0 v ∧ t = { s with w0 := v }) ∨ (∃ v, m = .setW1 v ∧ t = { s with w1 := v }) ∨
        (∃ v, m = .setW2 v ∧ t = { s with w2 := v }) ∨ (∃ b, m = .setKey b ∧ t = { s with key := b }) ∨
        (∃ b, m = .setData b ∧ t = { s with data := b }) ∨ (m = .copyOutToData ∧ t = { s with data := s.out }) ∨
        (∃ w, m = .issue w ∧ t = s.withCommand w))) := by
  cases m with
  | setW0 v => obtain ⟨hp, rfl⟩ := writeInput_next h; simp [hp]
  | setW1 v => obtain ⟨hp, rfl⟩ := writeInput_next h; simp [hp]
  | setW2 v => obtain ⟨hp, rfl⟩ := writeInput_next h; simp [hp]
  | setKey b => obtain ⟨hp, rfl⟩ := writeInput_next h; simp [hp]
  | setData b => obtain ⟨hp, rfl⟩ := writeInput_next h; simp [hp]
  | copyOutToData => obtain ⟨hp, rfl⟩ := writeInput_next h; simp [hp]
  | issue w => obtain ⟨hp, rfl⟩ | ⟨hp, rfl⟩ := writeCmd_next h <;> simp [hp]
  | assertReset => simp [hostMove] at h; simp [h]
  | releaseReset => simp [hostMove] at h; simp [h]

end Sys2Proof.Machine
end

