-- ==== Sys2Proof/Laws/PerInstr.lean ====
section
/-! SUPPORT. The family Encoding of LAWS.json: each command's word against its row of spec/opcode_table.json, constructor by
constructor. -/

namespace Sys2Proof.Laws.Encoding

/-- A row's `match`, as the table gives it. -/
def tableMatch : Instr → Word
  | .subst => 0x00000001#32
  | .rotl _ => 0x00000002#32
  | .round => 0x00000003#32
  | .encBlock => 0x00000004#32
  | .decBlock => 0x00000005#32
  | .pad => 0x00000006#32
  | .unpad => 0x00000007#32
  | .encMsg => 0x00000008#32
  | .decMsg => 0x00000009#32

/-- A row's `mask`, as the table gives it. -/
def tableMask : Instr → Word
  | .rotl _ => 0xFFFFFE0F#32
  | .subst => 0xFFFFFFFF#32
  | .round => 0xFFFFFFFF#32
  | .encBlock => 0xFFFFFFFF#32
  | .decBlock => 0xFFFFFFFF#32
  | .pad => 0xFFFFFFFF#32
  | .unpad => 0xFFFFFFFF#32
  | .encMsg => 0xFFFFFFFF#32
  | .decMsg => 0xFFFFFFFF#32

/-- A command is well-formed, and its word is legal and matches its row of the table. -/
def Statement (i : Instr) : Prop :=
  i.wellFormed = true ∧ legalWord (encode i) = true ∧ encode i &&& tableMask i = tableMatch i

theorem subst : Statement .subst := by unfold Statement; decide
theorem rotl (sh : BitVec 5) : Statement (.rotl sh) := by unfold Statement; revert sh; decide
theorem round : Statement .round := by unfold Statement; decide
theorem encBlock : Statement .encBlock := by unfold Statement; decide
theorem decBlock : Statement .decBlock := by unfold Statement; decide
theorem pad : Statement .pad := by unfold Statement; decide
theorem unpad : Statement .unpad := by unfold Statement; decide
theorem encMsg : Statement .encMsg := by unfold Statement; decide
theorem decMsg : Statement .decMsg := by unfold Statement; decide

end Sys2Proof.Laws.Encoding
end

