-- ==== Sys2Proof/Tests/Slice0.lean ====
section
/-! SUPPORT. Tests. Expected values are those of spec/95_test_vectors.md (named V, X, D) and of the rules' own examples, never the
model's. The witness theorems show, for each statement with hypotheses, inputs that meet them. -/

namespace Sys2Proof.Tests

open Sys2Proof.Machine

/-- A configuration with the table ID. -/
def cfgId (mode : UnpadMode) : Config := ⟨sboxId, mode, none, by decide, by decide⟩

/-- A configuration with the table GK. -/
def cfgGk (mode : UnpadMode) : Config := ⟨sboxGk, mode, none, by decide, by decide⟩

/-- A configuration with the table ID and MAX_MSG_BYTES = 16. -/
def cfgSmall : Config := ⟨sboxId, .strict, some 16, by decide, by decide⟩

/-- The key KA of 95_test_vectors.md, bytes 0x00 to 0x1F. -/
def keyA : Key := Vector.ofFn fun i => BitVec.ofNat 8 i.val

/-- The key KS of 95_test_vectors.md. -/
def keyS : Key := #v[0x30, 0x31, 0x32, 0x33, 0x34, 0x35, 0x36, 0x37, 0x38, 0x39, 0x61, 0x62, 0x63, 0x64, 0x65, 0x66,
  0x30, 0x31, 0x32, 0x33, 0x34, 0x35, 0x36, 0x37, 0x38, 0x39, 0x61, 0x62, 0x63, 0x64, 0x65, 0x66]

/-- The block 00 01 ... 07. -/
def block07 : Block := #v[0, 1, 2, 3, 4, 5, 6, 7]

/-- An idle instance with word inputs. -/
def withWords (c : Config) (w0 w1 w2 : Word) : State := { State.cleared c .idle with w0 := w0, w1 := w1, w2 := w2 }

/-- An idle instance with buffers. -/
def withBytes (c : Config) (key data : List Byte) : State := { State.cleared c .idle with key := key, data := data }

/-- The state after a step of `s` with `w` written to CMD. -/
def after (w : Word) (s : State) : Option State :=
  match step (s.withCommand w) with
  | .next t => some t
  | .fault _ => none
  | .refused _ => none

/-- The results a command leaves: STATUS, Y0, Y1, OUT. -/
def results (w : Word) (s : State) : Option (BitVec 8 × Word × Word × List Byte) :=
  (after w s).map fun t => (t.status, t.y0, t.y1, t.out)

/-! ## Well-formedness: each check refuses an ill-formed word -/

theorem test_rsvClear_refuses : rsvClear 0x00000202#32 = false ∧ legalWord 0x00000202#32 = false := by decide
theorem test_opAssigned_refuses_zero : opAssigned 0x00000000#32 = false ∧ legalWord 0x00000000#32 = false := by decide
theorem test_opAssigned_refuses_ten : opAssigned 0x0000000A#32 = false ∧ legalWord 0x0000000A#32 = false := by decide
theorem test_shAllowed_refuses : shAllowed 0x00000011#32 = false ∧ legalWord 0x00000011#32 = false := by decide
theorem test_legalWord_accepts : legalWord 0x000001F2#32 = true ∧ legalWord 0x00000009#32 = true := by decide
theorem test_wellFormed_rotl : (Instr.rotl 31#5).wellFormed = true := by decide

/-! ## Decoding: every constructor's word, written out as RSV, SH, OP (R60, R61) -/

theorem test_decode_subst : decode 0b00000000000000000000000_00000_0001#32 = .ok .subst := by decide
theorem test_decode_rotl : decode 0b00000000000000000000000_01011_0010#32 = .ok (.rotl 11#5) := by decide
theorem test_decode_round : decode 0b00000000000000000000000_00000_0011#32 = .ok .round := by decide
theorem test_decode_encBlock : decode 0b00000000000000000000000_00000_0100#32 = .ok .encBlock := by decide
theorem test_decode_decBlock : decode 0b00000000000000000000000_00000_0101#32 = .ok .decBlock := by decide
theorem test_decode_pad : decode 0b00000000000000000000000_00000_0110#32 = .ok .pad := by decide
theorem test_decode_unpad : decode 0b00000000000000000000000_00000_0111#32 = .ok .unpad := by decide
theorem test_decode_encMsg : decode 0b00000000000000000000000_00000_1000#32 = .ok .encMsg := by decide
theorem test_decode_decMsg : decode 0b00000000000000000000000_00000_1001#32 = .ok .decMsg := by decide
theorem test_decode_all_ones : decode 0xFFFFFFFF#32 = .error .reservedBits := by decide
theorem test_decode_op_f : decode 0x0000000F#32 = .error .reservedOpcode := by decide
theorem test_decodeTableWord : decodeTableWord 32 0x152 = some (.rotl 21#5) ∧ decodeTableWord 32 0x11 = none := by decide
theorem test_withFetchWord : (State.reset.withFetchWord 32 0x3).cmd = 0x00000003#32 := by decide

/-! ## One step of each command -/

/-- V9. -/
theorem test_subst_gk : results 0x1#32 (withWords (cfgGk .strict) 0x76543210#32 0 0) = some (0, 0x452511B4#32, 0, []) := by
  decide +kernel
/-- V12. -/
theorem test_subst_gk_mixed : results 0x1#32 (withWords (cfgGk .strict) 0x12345678#32 1 2) = some (0, 0xF40584A6#32, 0, []) := by
  decide +kernel
/-- V21. -/
theorem test_rotl_16 : results 0x102#32 (withWords (cfgId .strict) 0x12345678#32 0 0) = some (0, 0x56781234#32, 0, []) := by
  decide +kernel
/-- V13. -/
theorem test_rotl_0 : results 0x2#32 (withWords (cfgId .strict) 0x12345678#32 0 0) = some (0, 0x12345678#32, 0, []) := by
  decide +kernel
/-- V32. -/
theorem test_round_wraps : results 0x3#32 (withWords (cfgGk .strict) 0xFFFFFFFF#32 0xFFFFFFFF#32 0xFFFFFFFF#32) =
    some (0, 0xEE235198#32, 0xFFFFFFFF#32, []) := by decide +kernel
/-- V29. -/
theorem test_round_id : results 0x3#32 (withWords (cfgId .strict) 0x12345678#32 0x9ABCDEF0#32 0x01020304#32) =
    some (0, 0x28773E69#32, 0x12345678#32, []) := by decide +kernel
/-- V51. -/
theorem test_encBlock_gk : results 0x4#32 (withBytes (cfgGk .strict) keyA.toList block07.toList) =
    some (0, 0, 0, [0xd4, 0x8f, 0x98, 0x74, 0x5d, 0x38, 0xb9, 0xd2]) := by decide +kernel
/-- X8. -/
theorem test_encBlock_empty : results 0x4#32 (withBytes (cfgId .strict) keyS.toList []) = some (5, 0, 0, []) := by
  decide +kernel
/-- V54. -/
theorem test_decBlock_gk : results 0x5#32 (withBytes (cfgGk .strict) keyS.toList block07.toList) =
    some (0, 0, 0, [0xdc, 0xad, 0x46, 0x72, 0x7b, 0xec, 0xa6, 0x44]) := by decide +kernel
/-- X7: KLEN = 33 and DLEN = 16. -/
theorem test_decBlock_key_first :
    results 0x5#32 (withBytes (cfgId .strict) (keyS.toList ++ [0]) (List.replicate 16 0)) = some (2, 0, 0, []) := by
  decide +kernel
/-- X10: V61 with a key that PAD does not read. -/
theorem test_pad_abc : results 0x6#32 (withBytes (cfgId .strict) (keyS.toList.take 31) [0x61, 0x62, 0x63]) =
    some (0, 0, 0, [0x61, 0x62, 0x63, 0x05, 0x05, 0x05, 0x05, 0x05]) := by decide +kernel
/-- V63. -/
theorem test_pad_aligned : results 0x6#32 (withBytes (cfgId .strict) [] [0x61, 0x62, 0x63, 0x64, 0x65, 0x66, 0x67, 0x68]) =
    some (0, 0, 0, [0x61, 0x62, 0x63, 0x64, 0x65, 0x66, 0x67, 0x68, 8, 8, 8, 8, 8, 8, 8, 8]) := by decide +kernel
/-- V74. -/
theorem test_unpad_strict : results 0x7#32 (withBytes (cfgId .strict) [] [0x41, 0x42, 0x43, 5, 5, 5, 4, 5]) =
    some (6, 0, 0, []) := by decide +kernel
/-- The probe of R36. -/
theorem test_unpad_permissive : results 0x7#32 (withBytes (cfgId .permissive) [] [0x41, 0x03, 0x02]) =
    some (0, 0, 0, [0x41]) := by decide +kernel
/-- V91. -/
theorem test_encMsg_gk : results 0x8#32
    (withBytes (cfgGk .strict) keyS.toList [0x48, 0x65, 0x6c, 0x6c, 0x6f, 0x2c, 0x20, 0x47, 0x4f, 0x53, 0x54, 0x21]) =
    some (0, 0, 0, [0x4f, 0x58, 0x76, 0xef, 0xae, 0x77, 0x70, 0x0a, 0x14, 0x0b, 0x9d, 0x07, 0xdc, 0x12, 0xd8, 0x24]) := by
  decide +kernel
/-- X12: MAX_MSG_BYTES = 16 and DLEN = 16. -/
theorem test_encMsg_capacity : results 0x8#32 (withBytes cfgSmall keyS.toList (List.replicate 16 0)) = some (3, 0, 0, []) := by
  decide +kernel
/-- V94, PERMISSIVE. -/
theorem test_decMsg_permissive : results 0x9#32 (withBytes (cfgGk .permissive) keyS.toList
    [0x68, 0x8b, 0xc5, 0xfe, 0x5c, 0x30, 0xa0, 0x71, 0x80, 0xe0, 0xb5, 0x48, 0x07, 0x5b, 0x95, 0x9e]) =
    some (0, 0, 0, [0x41, 0x42, 0x43, 0x44, 0x45, 0x46]) := by decide +kernel
/-- X16: MAX_MSG_BYTES = 16 and DLEN = 20, capacity before alignment. -/
theorem test_decMsg_capacity_first :
    results 0x9#32 (withBytes cfgSmall keyS.toList (List.replicate 20 0)) = some (3, 0, 0, []) := by decide +kernel
/-- X9: an illegal word with a bad key and a bad length. -/
theorem test_illegal_word : results 0xA#32 (withBytes (cfgId .strict) (keyS.toList.take 31) (List.replicate 7 0)) =
    some (1, 0, 0, []) := by decide +kernel

/-! ## Assembler text (R67) -/

theorem test_assemble_set_w0 : assembleLine "set W0 = 0x12345678".toList = some (.statement (.setW0 0x12345678#32)) := by decide
theorem test_assemble_set_data : assembleLine "set DATA = hex\"410302\"".toList =
    some (.statement (.setData [0x41, 0x03, 0x02])) := by decide
theorem test_assemble_set_key : assembleLine "set KEY = \"Hi\"".toList = some (.statement (.setKey [0x48, 0x69])) := by decide
theorem test_assemble_copy : assembleLine "copy OUT -> DATA".toList = some (.statement .copyOutToData) := by decide
theorem test_assemble_empty : assembleLine "set DATA = []".toList = some (.statement (.setData [])) := by decide

/-! ## Witnesses: the hypotheses of the statements can be met -/

/-- An instance with `w` in CMD, in flight. -/
def flying (w : Word) : State := (withBytes (cfgId .strict) keyS.toList block07.toList).withCommand w

/-- A step of an instance in flight answers next. -/
theorem flying_steps (w : Word) : ∃ t, step (flying w) = .next t := by
  rcases step_cases (flying w) with ⟨_, h⟩ | ⟨_, i, _, h⟩ | ⟨_, _, h⟩
  · exact ⟨_, h⟩
  · obtain ⟨o, ho⟩ := exec_answers_completion i (flying w)
    exact ⟨_, h.trans ho⟩
  · exact ⟨_, h⟩

theorem witness_EncodeOfDecode : decode 0x000001F2#32 = .ok (.rotl 31#5) := by decide
theorem witness_IllegalWordEndsInIllegalCommand_rsv :
    (flying 0x00000202#32).phase = .inFlight ∧ ∃ r, decode (flying 0x00000202#32).cmd = .error r := ⟨rfl, _, rfl⟩
theorem witness_IllegalWordEndsInIllegalCommand_op :
    (flying 0x0000000A#32).phase = .inFlight ∧ ∃ r, decode (flying 0x0000000A#32).cmd = .error r := ⟨rfl, _, rfl⟩
theorem witness_IllegalWordEndsInIllegalCommand_sh :
    (flying 0x00000011#32).phase = .inFlight ∧ ∃ r, decode (flying 0x00000011#32).cmd = .error r := ⟨rfl, _, rfl⟩
theorem witness_StepRunsDecodedCommand :
    (flying 0x000000B2#32).phase = .inFlight ∧ decode (flying 0x000000B2#32).cmd = .ok (.rotl 11#5) ∧
      ∃ t, exec (.rotl 11#5) (flying 0x000000B2#32) = .next t := ⟨rfl, by decide, _, rfl⟩
theorem witness_StepWaitsWithoutCommand :
    State.reset.phase ≠ .inFlight ∧ (State.cleared cfgSmall .resetHeld).phase ≠ .inFlight := by decide
theorem witness_TransactionIsFunctionOfConfigInputsCmd : (withWords cfgSmall 1 2 3).phase = .idle := rfl
theorem witness_EveryStepCompletes : (flying 0x4#32).phase = .inFlight := rfl
theorem witness_ResultsDoNotDependOnHistory :
    SameInputs (flying 0x4#32) { flying 0x4#32 with y0 := 7#32, out := [1], statusCode := 6#3 } ∧
    (flying 0x4#32).phase = .inFlight ∧ (flying 0x4#32).y0 ≠ 7#32 := ⟨⟨rfl, rfl, rfl, rfl, rfl, rfl, rfl⟩, rfl, by decide⟩
theorem witness_CommandsNeverReadResults :
    (∃ t, exec .pad (flying 0x6#32) = .next t) ∧ (∃ t, hostMove (.setData [7]) (withWords cfgSmall 1 2 3) = .next t) ∧
      (withWords cfgSmall 1 2 3).phase = .idle := ⟨⟨_, rfl⟩, ⟨_, rfl⟩, rfl⟩
theorem witness_CommandsAreIdempotent : (flying 0x4#32).phase = .inFlight ∧ ∃ t, step (flying 0x4#32) = .next t :=
  ⟨rfl, flying_steps _⟩
theorem witness_InputsAndConfigUnchanged :
    (∃ t, step (flying 0x4#32) = .next t) ∧ (∃ t, exec .encBlock (flying 0x4#32) = .next t) ∧
      ∃ t, hostMove .assertReset (flying 0x4#32) = .next t := ⟨flying_steps _, ⟨_, rfl⟩, _, rfl⟩
theorem witness_UnreadInputsAreIgnored :
    AgreeOnReads .subst (withWords cfgSmall 5 1 2) { withWords cfgSmall 5 3 4 with key := [1], data := [2] } ∧
    AgreeOnReads .encMsg (flying 0x8#32) { flying 0x8#32 with w0 := 9#32 } := ⟨rfl, rfl, rfl⟩
theorem witness_NoStateKeepsKeyMaterial :
    (∃ t, step (flying 0x4#32) = .next t) ∧ ∃ t, step { flying 0x4#32 with key := [], w2 := 1#32 } = .next t :=
  ⟨flying_steps _, _, rfl⟩
theorem witness_SboxRowsAreBijections : ∀ i : Fin 8, Function.Bijective fun v : Nibble => sboxEntry sboxGk i v := by
  intro i
  apply Finite.injective_iff_bijective.mp
  revert i
  unfold Function.Injective
  decide +kernel
theorem witness_SubstCommandWritesSubstitutedWord :
    (withWords (cfgId .strict) 5 0 0).cfg.sbox = sboxId ∧ (withWords (cfgGk .strict) 0 0 0).cfg.sbox = sboxGk ∧
      (withWords (cfgGk .strict) 0 0 0).w0 = 0#32 := ⟨rfl, rfl, rfl⟩
theorem witness_RotlCommandRotatesLeft :
    (withWords cfgSmall 0 0 0).w0 = 0#32 ∧ (withWords cfgSmall 0xFFFFFFFF 0 0).w0 = 0xFFFFFFFF#32 ∧
      (withWords cfgSmall 0x80000000 0 0).w0 = 0x80000000#32 ∧ (withWords cfgSmall 1 0 0).w0 = 1#32 ∧
      (withWords cfgSmall 0x12345678 0 0).w0 = 0x12345678#32 := ⟨rfl, rfl, rfl, rfl, rfl⟩
theorem witness_RotlMovesEveryBit : (0 : Fin 32).val = 0 ∧ (31 : Fin 32).val ≠ 0 := by decide
theorem witness_RoundCommandRunsOneRound :
    (withWords (cfgId .strict) 0xFFFFFFFF 0 1).w0 = 0xFFFFFFFF#32 ∧ (withWords (cfgId .strict) 0xFFFFFFFF 0 1).w2 = 1#32 ∧
      (withWords (cfgId .strict) 0 0 0).cfg.sbox = sboxId ∧ (withWords (cfgId .strict) 0 0 0).w1 = 0#32 := ⟨rfl, rfl, rfl, rfl⟩
theorem witness_RoundCommandRunsOneRound_example :
    (withWords (cfgGk .strict) 0x12345678 0x9ABCDEF0 0x01020304).cfg.sbox = sboxGk ∧
      (withWords (cfgGk .strict) 0x12345678 0x9ABCDEF0 0x01020304).w1 = 0x9ABCDEF0#32 := ⟨rfl, rfl⟩
theorem witness_RoundEngineNeverFails : ∃ sh, Instr.rotl 31#5 = .rotl sh := ⟨_, rfl⟩
theorem witness_RoundEngineIsInvertible :
    (0 : Fin 32).val = (32 - (0 : Fin 32).val) % 32 ∧ (1 : Fin 32).val = (32 - (31 : Fin 32).val) % 32 ∧
      gostRound sboxId (0, 0) 0 = (0, 0) := by decide
theorem witness_LittleEndianConversions : 0 + 4 ≤ 4 ∧ 28 + 4 ≤ 32 := by decide
theorem witness_BufferReadsAndChunks :
    24 + 8 ≤ keyS.toList.length ∧ (chunks keyS.toList)[3]? ≠ none ∧ (chunks keyS.toList)[4]? = none := by decide
theorem witness_KeySchedulesAsListed : (31 : Fin 32).val = 31 - (0 : Fin 32).val ∧ (0 : Fin 32).val = 31 - (31 : Fin 32).val := by
  decide
/-- The idle instance of the block statements: an accepted key and block. -/
def blockState : State := withBytes (cfgGk .strict) keyS.toList block07.toList
theorem witness_BlockCommands : blockState.phase = .idle ∧ blockState.key = keyS.toList ∧ blockState.data = block07.toList :=
  ⟨rfl, rfl, rfl⟩
theorem witness_BlockCommands_errors :
    (withBytes cfgSmall [] []).key.length ≠ 32 ∧ (withBytes cfgSmall keyS.toList []).key.length = 32 ∧
      (withBytes cfgSmall keyS.toList []).data.length ≠ 8 ∧
      ∀ j : Fin 8, keyWord (Vector.replicate 32 0xFF#8) j = keyWord (Vector.replicate 32 0xFF#8) 0 := by decide +kernel
theorem witness_UnpadStrictStripsExactPadding :
    (∃ n, 1 ≤ n ∧ n ≤ 8 ∧ List.replicate 8 8#8 = [] ++ List.replicate n (BitVec.ofNat 8 n)) ∧
      ∃ n, 1 ≤ n ∧ n ≤ 8 ∧ [0x41#8, 1#8] = [0x41#8] ++ List.replicate n (BitVec.ofNat 8 n) :=
  ⟨⟨8, by decide, by decide, rfl⟩, 1, by decide, by decide, rfl⟩
theorem witness_UnpadPermissiveStripsLastByteMany :
    [0x41#8, 3#8, 2#8] = [0x41#8] ++ [3#8] ++ [2#8] ∧ [3#8].length + 1 = (2#8).toNat := by decide
theorem witness_EncryptMessageIsEcb :
    (chunks (pad (List.replicate 16 0x41#8)))[0]? = (chunks (pad (List.replicate 16 0x41#8)))[1]? ∧
      (chunks (List.replicate 16 0x41#8))[0]? = (chunks (List.replicate 16 0x41#8))[1]? := by decide +kernel
theorem witness_DecryptMessageUnpadsDecryptedChunks : ([] : List Byte).length % 8 = 0 ∧ block07.toList.length % 8 = 0 := by decide
/-- The capacity of 16 at its boundary: 15 bytes fit when padded, 16 do not; 16 fit as they are, 17 do not. -/
theorem witness_capacity_boundary :
    cfgSmall.maxMsgBytes = some 16 ∧ 15 + (8 - 15 % 8) ≤ 16 ∧ 16 < 16 + (8 - 16 % 8) ∧ (cfgId .strict).maxMsgBytes = none := by decide
theorem witness_PadCommandPadsData :
    (∀ m, (withBytes cfgSmall [] (List.replicate 15 0)).cfg.maxMsgBytes = some m → 15 + (8 - 15 % 8) ≤ m) ∧
      (withBytes cfgSmall [] (List.replicate 16 0)).data.length = 16 := by
  refine ⟨fun m h => ?_, by decide⟩
  cases h; decide
theorem witness_UnpadCommandStripsPadding :
    unpad cfgSmall.unpadMode (List.replicate 8 8#8) = some [] ∧ unpad cfgSmall.unpadMode [] = none ∧
      16 < (withBytes cfgSmall [] (List.replicate 17 0)).data.length := by decide
theorem witness_EncMsgCommandEncryptsMessage :
    (withBytes cfgSmall keyS.toList (List.replicate 15 0)).key = keyS.toList ∧ [1#8, 2#8, 3#8].length = 3 := by decide
theorem witness_DecMsgCommandDecryptsMessage :
    (withBytes (cfgGk .strict) keyS.toList [0x78, 0x64, 0x5a, 0x7b, 0x75, 0x2a, 0xe3, 0x7b]).data.length % 8 = 0 ∧
      decryptMessage sboxGk .strict [0x78, 0x64, 0x5a, 0x7b, 0x75, 0x2a, 0xe3, 0x7b] keyS = some [0x61, 0x62, 0x63] ∧
      decryptMessage sboxGk .strict [] keyS = none := by decide +kernel
theorem witness_DecMsgCommandDecryptsMessage_errors :
    (withBytes cfgSmall keyS.toList (List.replicate 7 0)).data.length = 7 ∧
      16 < (withBytes cfgSmall keyS.toList (List.replicate 17 0)).data.length ∧
      (withBytes cfgSmall keyS.toList []).data = [] := by decide
theorem witness_MessageRoundTrip :
    (withBytes cfgSmall keyS.toList (List.replicate 15 0)).phase = .idle ∧
      ∀ cap, (withBytes cfgSmall keyS.toList (List.replicate 15 0)).cfg.maxMsgBytes = some cap → 15 + (8 - 15 % 8) ≤ cap := by
  refine ⟨rfl, fun m h => ?_⟩
  cases h; decide
theorem witness_CapacityCheck_raised :
    ∃ t, exec .pad (withBytes cfgSmall [] (List.replicate 16 0)) = .next t ∧ t.statusCode = 3#3 := ⟨_, rfl, by decide⟩
theorem witness_StatusCodesByCommand :
    (flying 0x11#32).phase = .inFlight ∧ decode (flying 0x11#32).cmd = .error .shiftOffRotl ∧ ∃ t, step (flying 0x11#32) = .next t :=
  ⟨rfl, by decide, flying_steps _⟩
theorem witness_StatusRegisterLegal :
    HostMove.setW0 1 ≠ .assertReset ∧ ∃ t, hostMove (.setW0 1) (withWords cfgSmall 0 0 0) = .next t := ⟨by decide, _, rfl⟩
theorem witness_InvalidKeyLengthRaised :
    (withBytes cfgSmall (keyS.toList.take 31) []).key.length ≠ 32 ∧ (withBytes cfgSmall (keyS.toList ++ [0]) []).key.length ≠ 32 ∧
      ∃ t, exec .encMsg (withBytes cfgSmall [] []) = .next t ∧ t.statusCode = 2#3 := ⟨by decide, by decide, _, rfl, by decide⟩
theorem witness_BlockLengthErrorsRaised :
    (∃ t, exec .decMsg (withBytes (cfgId .strict) keyS.toList [1]) = .next t ∧ t.statusCode = 4#3) ∧
      ∃ t, exec .decBlock (withBytes cfgSmall keyS.toList [1]) = .next t ∧ t.statusCode = 5#3 :=
  ⟨⟨_, rfl, by decide⟩, _, rfl, by decide⟩
theorem witness_InvalidPaddingRaised :
    (∃ t, exec .unpad (withBytes (cfgId .strict) [] [0]) = .next t ∧ t.statusCode = 6#3) ∧
      (∃ t, exec .decMsg (withBytes (cfgId .strict) keyS.toList []) = .next t ∧ t.statusCode = 6#3) ∧
      chunks ([] : List Byte) = (chunks []).map (fun b => decryptBlock sboxId b keyS) ∧ unpad .strict [] = none :=
  ⟨⟨_, rfl, by decide⟩, ⟨_, rfl, by decide⟩, rfl, rfl⟩
theorem witness_FirstApplicableErrorIsReported :
    ErrorApplies .decMsg (withBytes cfgSmall [] (List.replicate 17 0)) .invalidKeyLength ∧
      ErrorApplies .decMsg (withBytes cfgSmall [] (List.replicate 17 0)) .capacityExceeded ∧
      ErrorApplies .decMsg (withBytes cfgSmall [] (List.replicate 17 0)) .invalidBlockAlignment :=
  ⟨⟨rfl, by decide⟩, ⟨17, 16, by decide, rfl, by decide⟩, rfl, by decide⟩
theorem witness_ResetState : ∃ t, hostMove .assertReset (flying 0x4#32) = .next t := ⟨_, rfl⟩
theorem witness_ResetAbandonsCommand : (State.cleared cfgSmall .resetHeld).phase = .resetHeld := rfl
theorem witness_HostWritesAndDuties : (withWords cfgSmall 0 0 0).phase = .idle ∧ (flying 0x4#32).phase = .inFlight := ⟨rfl, rfl⟩
theorem witness_ResultsPersistUntilNextCompletion :
    HostMove.copyOutToData ≠ .assertReset ∧ (∃ t, hostMove .copyOutToData blockState = .next t) ∧
      blockState.phase ≠ .inFlight ∧ ∃ t, step blockState = .next t := ⟨by decide, ⟨_, rfl⟩, by decide, _, rfl⟩
/-- The invariant holds of a state with a word result and of one with an error. -/
theorem witness_Inv : State.Inv { blockState with y0 := 7#32 } ∧ State.Inv { blockState with statusCode := 6#3 } :=
  ⟨⟨by decide, by decide, (fun m h => by cases h), by decide⟩, ⟨by decide, by decide, (fun m h => by cases h), by decide⟩⟩
theorem witness_StepKeepsResultInvariant :
    State.Inv (flying 0x4#32) ∧ ∃ t, step (flying 0x4#32) = .next t :=
  ⟨⟨by decide, by decide, (fun m h => by cases h), by decide⟩, flying_steps _⟩
theorem witness_HostMovesKeepResultInvariant :
    State.Inv blockState ∧ ∃ t, hostMove (.issue 0x4#32) blockState = .next t :=
  ⟨⟨by decide, by decide, (fun m h => by cases h), by decide⟩, _, rfl⟩
theorem witness_InstancesAreIndependent :
    ∃ cores', systemMove (.step 1) [blockState, flying 0x1#32] = some (.next cores') := ⟨_, rfl⟩
theorem witness_AssembleOfDisassemble : ∃ r, decode 0x80000004#32 = .error r := ⟨_, rfl⟩

end Sys2Proof.Tests
end

