-- ==== Sys2Proof/Proofs/LittleEndian.lean ====
section
/-! PROOFS. The byte order of words (spec/00_scope.md R11). `LE32` is the concatenation of its four bytes, the highest index
first; its value as a sum of bytes and its agreement with `toLE32` both follow from that form. -/

namespace Sys2Proof.Machine

/-- The bytes that `le32` shifts into place occupy disjoint bits, so their disjunction is a concatenation. -/
theorem le32_eq_append {n : Nat} (b : Vector Byte n) (a : Nat) (h : a + 4 ≤ n) :
    le32 b a h = b[a + 3] ++ b[a + 2] ++ b[a + 1] ++ b[a] := by
  apply BitVec.eq_of_getLsbD_eq
  intro i hi
  have position : i < 8 ∨ 8 ≤ i ∧ i < 16 ∨ 16 ≤ i ∧ i < 24 ∨ 24 ≤ i := by omega
  simp only [le32, BitVec.getLsbD_or, BitVec.getLsbD_shiftLeft, BitVec.getLsbD_setWidth, BitVec.getLsbD_append]
  obtain hi0 | ⟨hl, hr⟩ | ⟨hl, hr⟩ | hl := position <;> grind

/-- A word followed by a byte: the byte is the lowest digit in base `2 ^ 8`. -/
theorem toNat_append_byte {m : Nat} (x : BitVec m) (y : Byte) : (x ++ y).toNat = 2 ^ 8 * x.toNat + y.toNat := by
  rw [BitVec.toNat_append, ← Nat.shiftLeft_add_eq_or_of_lt y.isLt, Nat.shiftLeft_eq, Nat.mul_comm]

/-- The bytes of `le32` are the digits of its value in base `2 ^ 8`. -/
theorem le32_toNat {n : Nat} (b : Vector Byte n) (a : Nat) (h : a + 4 ≤ n) :
    (le32 b a h).toNat =
      b[a].toNat + 2 ^ 8 * b[a + 1].toNat + 2 ^ 16 * b[a + 2].toNat + 2 ^ 24 * b[a + 3].toNat := by
  rw [le32_eq_append, toNat_append_byte, toNat_append_byte, toNat_append_byte]
  omega

/-- Four bytes that are the bytes of a word, least significant first, read back as the word, wherever in a buffer they lie. -/
theorem le32_eq_of_bytes {n : Nat} {b : Vector Byte n} {a : Nat} (h : a + 4 ≤ n) {w : Word}
    (h0 : b[a] = w.extractLsb' 0 8) (h1 : b[a + 1] = w.extractLsb' 8 8) (h2 : b[a + 2] = w.extractLsb' 16 8)
    (h3 : b[a + 3] = w.extractLsb' 24 8) : le32 b a h = w := by
  have high : w.extractLsb' 24 8 ++ w.extractLsb' 16 8 = w.extractLsb' 16 16 :=
    BitVec.extractLsb'_append_extractLsb'_eq_extractLsb' rfl
  have upper : w.extractLsb' 16 16 ++ w.extractLsb' 8 8 = w.extractLsb' 8 24 :=
    BitVec.extractLsb'_append_extractLsb'_eq_extractLsb' rfl
  have all : w.extractLsb' 8 24 ++ w.extractLsb' 0 8 = w.extractLsb' 0 32 :=
    BitVec.extractLsb'_append_extractLsb'_eq_extractLsb' rfl
  rw [le32_eq_append, h0, h1, h2, h3, high, upper, all, BitVec.extractLsb'_eq_self]

theorem le32_toLE32 (w : Word) : le32 (toLE32 w) 0 (by omega) = w :=
  le32_eq_of_bytes _ rfl rfl rfl rfl

/-- The bytes of `toLE32` are the digits of the word in base `2 ^ 8`; the top one needs no reduction. -/
theorem toLE32_toNat (w : Word) : (toLE32 w).toList.map BitVec.toNat =
    [w.toNat % 256, w.toNat / 2 ^ 8 % 256, w.toNat / 2 ^ 16 % 256, w.toNat / 2 ^ 24] := by
  have top : w.toNat / 2 ^ 24 < 256 := by omega
  simpa [toLE32, BitVec.extractLsb'_toNat, Nat.shiftRight_eq_div_pow] using top

/-- Settles O24: the sum of bytes, the list of bytes, and the round trip of a word. -/
theorem littleEndianConversions : Obligations.LittleEndianConversions :=
  ⟨fun _ => le32_toNat, toLE32_toNat, le32_toLE32⟩

end Sys2Proof.Machine
end

