-- ==== Sys2Proof/Proofs/CommandOutcome.lean ====
section
/-! PROOFS. The outcome of a command as a function of the inputs and the configuration. A step in flight is the completion of the
issued word with that outcome, so what a completion writes is all that a step can write (10_state.md R31, R32). -/

namespace Sys2Proof.Machine

/-- What a command computes before it completes: its results or its error. -/
def commandOutcome (s : State) : Instr → Except CmdError Results
  | .subst => .ok (Results.words (subst s.cfg.sbox s.w0) 0#32)
  | .rotl sh => .ok (Results.words (rotl s.w0 ⟨sh.toNat, sh.isLt⟩) 0#32)
  | .round => .ok (Results.words (s.w1 ^^^ roundMask s.cfg.sbox s.w0 s.w2) s.w0)
  | .encBlock => blockOutcome s (encryptBlock s.cfg.sbox)
  | .decBlock => blockOutcome s (decryptBlock s.cfg.sbox)
  | .pad => padOutcome s
  | .unpad => unpadDataOutcome s
  | .encMsg => encMsgOutcome s
  | .decMsg => decMsgOutcome s

/-- What the word in CMD computes: the outcome of its command, or IllegalCommand (R152). -/
def issuedOutcome (s : State) : Except CmdError Results :=
  match decode s.cmd with
  | .ok i => commandOutcome s i
  | .error _ => .error .illegalCommand

/-- The meaning of every command is the completion with its outcome. -/
theorem exec_eq_complete (i : Instr) (s : State) : exec i s = .next (s.complete (commandOutcome s i)) := by
  cases i with
  | subst => exact exec_subst_eq s
  | rotl sh => exact exec_rotl_eq sh s
  | round => exact exec_round_eq s
  | encBlock => exact exec_encBlock_eq s
  | decBlock => exact exec_decBlock_eq s
  | pad => exact exec_pad_eq s
  | unpad => exact exec_unpad_eq s
  | encMsg => exact exec_encMsg_eq s
  | decMsg => exact exec_decMsg_eq s

theorem issuedOutcome_of_decode {s : State} {i : Instr} (h : decode s.cmd = .ok i) :
    issuedOutcome s = commandOutcome s i := by simp [issuedOutcome, h]

theorem issuedOutcome_of_illegal {s : State} {r : IllegalWord} (h : decode s.cmd = .error r) :
    issuedOutcome s = .error .illegalCommand := by simp [issuedOutcome, h]

/-- A step with a command in flight is the completion with the outcome of the word in CMD. -/
theorem step_of_inFlight {s : State} (h : s.phase = .inFlight) : step s = .next (s.complete (issuedOutcome s)) := by
  obtain ⟨hn, -⟩ | ⟨-, i, hd, hs⟩ | ⟨-, ⟨r, hd⟩, hs⟩ := step_cases s
  · exact absurd h hn
  · rw [hs, exec_eq_complete, issuedOutcome_of_decode hd]
  · rw [hs, issuedOutcome_of_illegal hd, State.complete_error]

/-- A step waits without a command, or completes the one in flight. -/
theorem step_waits_or_completes (s : State) :
    (s.phase ≠ .inFlight ∧ step s = .next s) ∨
    (s.phase = .inFlight ∧ step s = .next (s.complete (issuedOutcome s))) := by
  obtain hwaits | ⟨hp, -⟩ | ⟨hp, -⟩ := step_cases s
  · exact .inl hwaits
  · exact .inr ⟨hp, step_of_inFlight hp⟩
  · exact .inr ⟨hp, step_of_inFlight hp⟩

/-- A command's outcome reads neither the result registers nor the phase. -/
theorem commandOutcome_congr {s s' : State} (h : SameInputs s s') (i : Instr) :
    commandOutcome s i = commandOutcome s' i := by
  obtain ⟨cfg, cmd, phase, w0, w1, w2, key, data, y0, y1, out, code⟩ := s
  obtain ⟨hcfg, hcmd, hw0, hw1, hw2, hkey, hdata⟩ := h
  subst hcfg hcmd hw0 hw1 hw2 hkey hdata
  cases i <;> rfl

theorem issuedOutcome_congr {s s' : State} (h : SameInputs s s') : issuedOutcome s = issuedOutcome s' := by
  have houtcome := commandOutcome_congr h
  obtain ⟨-, hcmd, -⟩ := h
  simp only [issuedOutcome, hcmd, houtcome]

/-- A completion writes no input and no configuration (R55). -/
theorem State.complete_sameInputs (s : State) (o : Except CmdError Results) : SameInputs (s.complete o) s := by
  simp [SameInputs]

/-- What a completion leaves in the result registers is its outcome's, whatever the state. -/
theorem State.complete_sameResults (s s' : State) (o : Except CmdError Results) :
    SameResults (s.complete o) (s'.complete o) := by
  cases o with
  | ok r => exact ⟨rfl, rfl, rfl, rfl⟩
  | error e => exact ⟨rfl, rfl, rfl, rfl⟩

/-- A completion differs from its state in the result registers and the pending command alone. -/
theorem State.complete_endsWith (s : State) (o : Except CmdError Results) :
    ∃ y0 y1 out code, s.complete o = s.endsWith y0 y1 out code := by
  obtain ⟨r, -, h⟩ | ⟨e, -, h⟩ := s.complete_cases _ o rfl
  · exact ⟨_, _, _, _, h⟩
  · exact ⟨_, _, _, _, h⟩

/-- Settles O10: the outcome is a function of the inputs, and a completion writes nothing but its outcome. -/
theorem resultsDoNotDependOnHistory : Obligations.ResultsDoNotDependOnHistory := by
  intro s s' hin hs hs'
  refine ⟨_, _, step_of_inFlight hs, step_of_inFlight hs', ?_, s.complete_sameInputs _, s.complete_phase _⟩
  rw [issuedOutcome_congr hin]
  exact State.complete_sameResults s s' _

/-- Settles O15: both steps wait, or both complete and write the result registers and the phase alone. -/
theorem noStateKeepsKeyMaterial : Obligations.NoStateKeepsKeyMaterial := by
  intro s t t' k v ht ht'
  obtain ⟨hp, hs⟩ | ⟨hp, hs⟩ := step_waits_or_completes s
  · obtain ⟨-, hs'⟩ | ⟨hp', -⟩ := step_waits_or_completes { s with key := k, w2 := v }
    · cases hs.symm.trans ht
      cases hs'.symm.trans ht'
      rfl
    · exact absurd hp' hp
  · have hs' := step_of_inFlight (s := { s with key := k, w2 := v }) hp
    obtain ⟨y0, y1, out, code, he⟩ := s.complete_endsWith (issuedOutcome s)
    obtain ⟨y0', y1', out', code', he'⟩ :=
      State.complete_endsWith { s with key := k, w2 := v } (issuedOutcome { s with key := k, w2 := v })
    rw [he] at hs
    rw [he'] at hs'
    cases hs.symm.trans ht
    cases hs'.symm.trans ht'
    rfl

end Sys2Proof.Machine
end

