-- ==== Sys2Proof/Proofs/MessageLengths.lean ====
section
/-! PROOFS. How long the results of the byte commands are (42_message_codec.md R120 to R124), and what fits a capacity (R131). -/

namespace Sys2Proof.Machine

theorem fits_mono {cap : Option Nat} {m n : Nat} (hmn : m ≤ n) (h : fits cap n = true) : fits cap m = true := by
  cases cap with
  | none => rfl
  | some c => simp only [fits, decide_eq_true_eq] at h ⊢; omega

/-- A capacity holds at least two blocks (R131). -/
theorem fits_of_le_sixteen (c : Config) {n : Nat} (hn : n ≤ 16) : fits c.maxMsgBytes n = true := by
  have legal := c.maxMsg_legal
  cases hm : c.maxMsgBytes with
  | none => rfl
  | some m =>
    simp only [hm, maxMsgLegal, Bool.and_eq_true, decide_eq_true_eq] at legal
    simp only [fits, decide_eq_true_eq]
    omega

theorem pad_length (d : List Byte) : (pad d).length = d.length + padLen d.length := by simp [pad]

/-- A transform chunk by chunk keeps the length, but for the rest that is in no chunk. -/
theorem mapChunks_length (f : Block → Block) (x : List Byte) : (mapChunks f x).length = x.length / 8 * 8 := by
  simp [mapChunks, List.length_flatMap, chunks_length]

theorem encryptMessage_length (t : SboxTable) (m : List Byte) (key : Key) :
    (encryptMessage t m key).length = m.length + padLen m.length := by
  rw [encryptMessage, mapChunks_length, pad_length, padLen]
  omega

/-- An unpadding only takes bytes away. -/
theorem unpad_length_le {mode : UnpadMode} {p r : List Byte} (h : unpad mode p = some r) : r.length ≤ p.length := by
  cases mode with
  | strict =>
    simp only [unpad, unpadStrict] at h
    split at h
    · cases h
    · split at h
      · cases h
      · split at h
        · cases h; exact List.length_take_le' _ _
        · cases h
  | permissive =>
    simp only [unpad, unpadPermissive] at h
    split at h
    · cases h
    · split at h
      · cases h
      · cases h; exact List.length_take_le' _ _

theorem decryptMessage_length_le {t : SboxTable} {mode : UnpadMode} {x r : List Byte} {key : Key}
    (h : decryptMessage t mode x key = some r) : r.length ≤ x.length := by
  have hr : r.length ≤ x.length / 8 * 8 := by simpa [mapChunks_length] using unpad_length_le h
  omega

end Sys2Proof.Machine
end

