-- ==== Sys2Proof/Proofs/ResultInvariant.lean ====
section
/-! PROOFS. The invariant of the result registers. Every outcome is legal for the configuration, whatever the state; a completion
with a legal outcome meets the invariant; a host move other than reset touches no result register. -/

namespace Sys2Proof.Machine

/-- Results that a completion may write under a configuration: OUT fits its buffer, and it is filled only where the words are 0
(R27, R28, R131). -/
structure Results.Legal (c : Config) (r : Results) : Prop where
  out_fits : fits c.maxMsgBytes r.out.length = true
  one_kind : r.out ≠ [] → r.y0 = 0#32 ∧ r.y1 = 0#32

/-- An outcome whose results, if it has any, are legal. -/
def LegalOutcome (c : Config) : Except CmdError Results → Prop
  | .ok r => r.Legal c
  | .error _ => True

theorem Results.words_legal (c : Config) (y0 y1 : Word) : (Results.words y0 y1).Legal c where
  out_fits := fits_of_le_sixteen c (Nat.zero_le 16)
  one_kind h := absurd rfl h

theorem Results.bytes_legal {c : Config} {out : List Byte} (h : fits c.maxMsgBytes out.length = true) :
    (Results.bytes out).Legal c where
  out_fits := h
  one_kind _ := ⟨rfl, rfl⟩

theorem blockOutcome_legal (s : State) (f : Block → Key → Block) : LegalOutcome s.cfg (blockOutcome s f) := by
  unfold blockOutcome
  split
  · split
    · exact Results.bytes_legal (fits_of_le_sixteen s.cfg (by simp))
    · trivial
  · trivial

theorem padOutcome_legal (s : State) : LegalOutcome s.cfg (padOutcome s) := by
  unfold padOutcome
  split
  · trivial
  · next h => exact Results.bytes_legal (by rw [pad_length]; simpa [padCapacityExceeded] using h)

theorem encMsgOutcome_legal (s : State) : LegalOutcome s.cfg (encMsgOutcome s) := by
  unfold encMsgOutcome
  split
  · split
    · trivial
    · next h => exact Results.bytes_legal (by rw [encryptMessage_length]; simpa [padCapacityExceeded] using h)
  · trivial

/-- An unpadding no longer than a sequence that fits is legal. -/
theorem unpadOutcome_legal {c : Config} {n : Nat} {o : Option (List Byte)} (hn : fits c.maxMsgBytes n = true)
    (ho : ∀ r, o = some r → r.length ≤ n) : LegalOutcome c (unpadOutcome o) := by
  cases o with
  | none => trivial
  | some r => exact Results.bytes_legal (fits_mono (ho r rfl) hn)

theorem unpadDataOutcome_legal (s : State) : LegalOutcome s.cfg (unpadDataOutcome s) := by
  unfold unpadDataOutcome
  split
  · trivial
  · next h =>
    have hfit : fits s.cfg.maxMsgBytes s.data.length = true := by simpa [unpadCapacityExceeded] using h
    exact unpadOutcome_legal hfit fun _ hr => unpad_length_le hr

theorem decMsgOutcome_legal (s : State) : LegalOutcome s.cfg (decMsgOutcome s) := by
  unfold decMsgOutcome
  split
  · split
    · trivial
    · next h =>
      have hfit : fits s.cfg.maxMsgBytes s.data.length = true := by simpa [unpadCapacityExceeded] using h
      split
      · trivial
      · exact unpadOutcome_legal hfit fun _ hr => decryptMessage_length_le hr
  · trivial

theorem commandOutcome_legal (s : State) (i : Instr) : LegalOutcome s.cfg (commandOutcome s i) := by
  cases i with
  | subst => exact Results.words_legal _ _ _
  | rotl sh => exact Results.words_legal _ _ _
  | round => exact Results.words_legal _ _ _
  | encBlock => exact blockOutcome_legal s _
  | decBlock => exact blockOutcome_legal s _
  | pad => exact padOutcome_legal s
  | unpad => exact unpadDataOutcome_legal s
  | encMsg => exact encMsgOutcome_legal s
  | decMsg => exact decMsgOutcome_legal s

theorem issuedOutcome_legal (s : State) : LegalOutcome s.cfg (issuedOutcome s) := by
  cases hd : decode s.cmd with
  | ok i => rw [issuedOutcome_of_decode hd]; exact commandOutcome_legal s i
  | error r => rw [issuedOutcome_of_illegal hd]; trivial

theorem State.inv_cleared (c : Config) (p : Phase) : (State.cleared c p).Inv where
  code_legal := by simp
  error_empty _ := ⟨rfl, rfl, rfl⟩
  out_fits m _ := Nat.zero_le m
  one_kind _ := ⟨rfl, rfl⟩

theorem State.inv_succeed {s : State} {r : Results} (h : r.Legal s.cfg) : (s.succeed r).Inv where
  code_legal := by simp [codeOk]
  error_empty hc := absurd rfl hc
  out_fits m hm := by
    have hcap : s.cfg.maxMsgBytes = some m := hm
    simpa [fits, hcap] using h.out_fits
  one_kind := h.one_kind

theorem State.inv_raiseError (s : State) (e : CmdError) : (s.raiseError e).Inv where
  code_legal := e.code_range.2
  error_empty _ := ⟨rfl, rfl, rfl⟩
  out_fits m _ := Nat.zero_le m
  one_kind _ := ⟨rfl, rfl⟩

theorem State.inv_complete {s : State} {o : Except CmdError Results} (h : LegalOutcome s.cfg o) : (s.complete o).Inv := by
  cases o with
  | ok r => exact State.inv_succeed h
  | error e => exact State.inv_raiseError s e

/-- A completed command meets the invariant, whatever the registers held before. -/
theorem State.inv_complete_issuedOutcome (s : State) : (s.complete (issuedOutcome s)).Inv :=
  State.inv_complete (issuedOutcome_legal s)

/-- Every step answers next, and keeps the invariant. -/
theorem State.Inv.step_next {s : State} (h : s.Inv) : ∃ t, step s = .next t ∧ t.Inv := by
  obtain ⟨-, hs⟩ | ⟨-, hs⟩ := step_waits_or_completes s
  · exact ⟨s, hs, h⟩
  · exact ⟨_, hs, s.inv_complete_issuedOutcome⟩

/-- The invariant speaks of the configuration and the result registers alone. -/
theorem State.Inv.of_sameResults {s t : State} (h : s.Inv) (hcfg : t.cfg = s.cfg) (hres : SameResults t s) : t.Inv := by
  obtain ⟨hy0, hy1, hout, hcode⟩ := hres
  obtain ⟨code_legal, error_empty, out_fits, one_kind⟩ := h
  constructor
  · rwa [hcode]
  · rwa [hcode, hy0, hy1, hout]
  · rwa [hcfg, hout]
  · rwa [hy0, hy1, hout]

theorem releaseReset_keeps_results (s : State) : (releaseReset s).cfg = s.cfg ∧ SameResults (releaseReset s) s := by
  unfold releaseReset
  split <;> exact ⟨rfl, rfl, rfl, rfl, rfl⟩

/-- A host move but reset writes no result register and no configuration (R50, R22). -/
theorem hostMove_keeps_results {m : HostMove} {s t : State} (hm : m ≠ .assertReset) (h : hostMove m s = .next t) :
    t.cfg = s.cfg ∧ SameResults t s := by
  obtain ⟨hr, -⟩ | ⟨-, rfl⟩ | ⟨w, -, -, rfl⟩ | ⟨-, hwrite⟩ := hostMove_next h
  · exact absurd hr hm
  · exact releaseReset_keeps_results s
  · exact ⟨rfl, rfl, rfl, rfl, rfl⟩
  · obtain ⟨v, -, rfl⟩ | ⟨v, -, rfl⟩ | ⟨v, -, rfl⟩ | ⟨b, -, rfl⟩ | ⟨b, -, rfl⟩ | ⟨-, rfl⟩ | ⟨w, -, rfl⟩ := hwrite <;>
      exact ⟨rfl, rfl, rfl, rfl, rfl⟩

/-- A run that begins with a step answering next goes on from there. -/
theorem run_succ_of_step {s t : State} (k : Nat) (h : step s = .next t) :
    Host.Core.run Sys2Proof.core (k + 1) s = Host.Core.run Sys2Proof.core k t := by
  have hcore : Sys2Proof.core.step s = .next t := h
  simp only [Host.Core.run, hcore]

/-- Settles O54: a step waits, or completes with a legal outcome. -/
theorem stepKeepsResultInvariant : Obligations.StepKeepsResultInvariant := by
  intro s t hinv hstep
  obtain ⟨t', ht', hinv'⟩ := hinv.step_next
  cases ht'.symm.trans hstep
  exact hinv'

/-- Settles O55: reset gives the reset values, and every other move keeps the result registers. -/
theorem hostMovesKeepResultInvariant : Obligations.HostMovesKeepResultInvariant := by
  intro m s t hinv hmove
  by_cases hm : m = .assertReset
  · subst hm
    cases hmove
    exact State.inv_cleared s.cfg .resetHeld
  · obtain ⟨hcfg, hres⟩ := hostMove_keeps_results hm hmove
    exact hinv.of_sameResults hcfg hres

/-- Settles O56: the reset values meet the invariant under every configuration. -/
theorem resetHasResultInvariant : Obligations.ResetHasResultInvariant :=
  ⟨State.inv_cleared Config.built .idle, State.inv_cleared⟩

/-- Settles O57, by induction on the length of the run. -/
theorem everyRunIsSafe : Obligations.EveryRunIsSafe := by
  intro s k hinv
  induction k generalizing s with
  | zero => exact ⟨s, rfl, hinv⟩
  | succ k ih =>
    obtain ⟨t, hstep, ht⟩ := hinv.step_next
    obtain ⟨u, hrun, hu⟩ := ih t ht
    exact ⟨u, (run_succ_of_step k hstep).trans hrun, hu⟩

end Sys2Proof.Machine
end

