-- ==== Sys2Proof/Proofs/SboxRows.lean ====
section
/-! PROOFS. The rows of the substitution table (10_state.md R21): a row without a repeated entry is an injective map on the 16
nibbles, hence a bijection. -/

namespace Sys2Proof.Machine

/-- The check on a row says that the row is a bijection on nibbles. -/
theorem row_nodup_iff_bijective (row : Vector Nibble 16) :
    row.toList.Nodup ↔ Function.Bijective fun v : Nibble => row[v.toNat] := by
  rw [← Finite.injective_iff_bijective, List.nodup_iff_injective_getElem]
  have bound (v : Nibble) : v.toNat < row.toList.length := by rw [Vector.length_toList]; exact v.isLt
  constructor
  · intro hinj v v' hv
    have hidx := @hinj ⟨v.toNat, bound v⟩ ⟨v'.toNat, bound v'⟩ (by simpa using hv)
    exact BitVec.eq_of_toNat_eq (by simpa using hidx)
  · rintro hinj ⟨a, ha⟩ ⟨b, hb⟩ hab
    simp only [Vector.length_toList] at ha hb
    have hv := @hinj (BitVec.ofNatLT a ha) (BitVec.ofNatLT b hb) (by simpa using hab)
    simpa using congrArg BitVec.toNat hv

/-- The check on a table is the check on each of its rows. -/
theorem sboxLegal_iff (t : SboxTable) : sboxLegal t = true ↔ ∀ i : Fin 8, t[i.val].toList.Nodup := by
  simp only [sboxLegal, List.all_eq_true, decide_eq_true_eq, Vector.mem_toList_iff]
  constructor
  · exact fun h i => h _ (Vector.getElem_mem i.isLt)
  · intro h row hrow
    obtain ⟨i, hi, rfl⟩ := Vector.getElem_of_mem hrow
    exact h ⟨i, hi⟩

/-- A table passes the check exactly when each of its rows is a bijection. -/
theorem sboxLegal_iff_bijective (t : SboxTable) :
    sboxLegal t = true ↔ ∀ i : Fin 8, Function.Bijective fun v : Nibble => sboxEntry t i v := by
  rw [sboxLegal_iff]
  exact forall_congr' fun i => row_nodup_iff_bijective t[i.val]

/-- Settles O16: a configuration carries the check, and the check says that the rows are bijections. -/
theorem sboxRowsAreBijections : Obligations.SboxRowsAreBijections :=
  ⟨fun c => (sboxLegal_iff_bijective c.sbox).mp c.sbox_legal, fun t => (sboxLegal_iff_bijective t).mpr⟩

end Sys2Proof.Machine
end

