-- ==== Sys2Proof/Proofs/StatusAndHostWrites.lean ====
section
/-! PROOFS. STATUS (10_state.md R29), the state after reset (R35), and the host's writes of CMD and of the inputs (R23 to R26). -/

namespace Sys2Proof.Machine

theorem writeInput_idle {s : State} (t : State) (h : s.phase = .idle) : writeInput s t = .next t := by
  simp [writeInput, h]

theorem writeInput_inFlight {s : State} (t : State) (h : s.phase = .inFlight) :
    writeInput s t = .refused .inputChangedInFlight := by simp [writeInput, h]

theorem writeCmd_idle {s : State} (w : Word) (h : s.phase = .idle) : writeCmd w s = .next (s.withCommand w) := by
  simp [writeCmd, h]

theorem writeCmd_inFlight {s : State} (w : Word) (h : s.phase = .inFlight) :
    writeCmd w s = .refused .commandInFlight := by simp [writeCmd, h]

/-- The hard-wired bits of STATUS read 0. -/
theorem State.status_reserved (s : State) : s.status.extractLsb' 3 5 = 0#5 := by
  apply BitVec.eq_of_getLsbD_eq
  intro i hi
  simp [State.status]

/-- The low bits of STATUS are CODE. -/
theorem State.status_code (s : State) : s.status.extractLsb' 0 3 = s.statusCode := by
  rw [State.status, BitVec.extractLsb'_setWidth_of_le (by decide), BitVec.extractLsb'_eq_self]

/-- STATUS reads at most 6 where CODE is not 7. -/
theorem State.status_le_six {s : State} (h : s.statusCode ≠ 7#3) : s.status.toNat ≤ 6 := by
  have hne : s.statusCode.toNat ≠ 7 := fun h7 => h (BitVec.eq_of_toNat_eq h7)
  have hlt := s.statusCode.isLt
  have hstatus : s.status.toNat = s.statusCode.toNat := by rw [State.status, BitVec.toNat_setWidth]; omega
  omega

theorem readStatus_next {s : State} (h : s.statusCode ≠ 7#3) : readStatus s = .next s.status := if_neg h

/-- Settles O45: a completed command meets the invariant, so its CODE is not 7; host moves but reset keep CODE. -/
theorem statusRegisterLegal : Obligations.StatusRegisterLegal := by
  refine ⟨fun s => ⟨s.status_reserved, s.status_code⟩, ?_, ?_, rfl⟩
  · intro s t hp hstep
    cases (step_of_inFlight hp).symm.trans hstep
    have hcode := s.inv_complete_issuedOutcome.code_legal
    exact ⟨State.status_le_six hcode, readStatus_next hcode⟩
  · intro m s t hm hmove
    obtain ⟨-, -, -, -, hcode⟩ := hostMove_keeps_results hm hmove
    rw [State.status, State.status, hcode]

/-- Settles O50: reset keeps the configuration, and the rest is `State.cleared`. -/
theorem resetState : Obligations.ResetState := by
  refine ⟨?_, rfl, rfl, rfl, rfl, rfl, rfl, rfl, rfl, rfl, rfl⟩
  intro s t hmove
  cases hmove
  exact State.cleared_cfg s.cfg .resetHeld

/-- Settles O52: the two phases of a write of an input and of a write of CMD. -/
theorem hostWritesAndDuties : Obligations.HostWritesAndDuties := by
  constructor
  · intro s v bytes h
    exact ⟨writeInput_idle _ h, writeInput_idle _ h, writeInput_idle _ h, writeInput_idle _ h, writeInput_idle _ h,
      writeCmd_idle v h⟩
  · intro s v bytes h
    exact ⟨writeCmd_inFlight v h, writeInput_inFlight _ h, writeInput_inFlight _ h, writeInput_inFlight _ h,
      writeInput_inFlight _ h, writeInput_inFlight _ h, writeInput_inFlight _ h⟩

end Sys2Proof.Machine
end

