-- ==== Sys2Proof/Proofs/CommandFrame.lean ====
section
/-! PROOFS. What commands and host moves leave alone (spec/20_memory.md R48, R50, R55, R56): a completion is a function of the
inputs and keeps them, and the result registers are written by a completion and by reset alone. -/

namespace Sys2Proof.Machine

/-- A completion overwrites every result register, so what they held before is lost. -/
theorem State.complete_of_results (s : State) (a b : Word) (out : List Byte) (code : BitVec 3)
    (o : Except CmdError Results) :
    State.complete { s with y0 := a, y1 := b, out := out, statusCode := code } o = s.complete o := by
  cases o with
  | ok r => rfl
  | error e => rfl

/-- The inputs are in place again once a completed command's word is back in CMD. -/
theorem State.complete_withCommand_sameInputs (s : State) (o : Except CmdError Results) :
    SameInputs ((s.complete o).withCommand s.cmd) s := by
  simp [SameInputs]

/-- A completion after the same word is issued again, with the same outcome, is the first completion. -/
theorem State.complete_withCommand_complete (s : State) (o : Except CmdError Results) :
    ((s.complete o).withCommand s.cmd).complete o = s.complete o := by
  cases o with
  | ok r => rfl
  | error e => rfl

/-- A command reads no result register (R32, R56). -/
theorem exec_of_results (i : Instr) (s : State) (a b : Word) (out : List Byte) (code : BitVec 3) :
    exec i { s with y0 := a, y1 := b, out := out, statusCode := code } = exec i s := by
  have hin : SameInputs { s with y0 := a, y1 := b, out := out, statusCode := code } s :=
    ⟨rfl, rfl, rfl, rfl, rfl, rfl, rfl⟩
  rw [exec_eq_complete, exec_eq_complete, commandOutcome_congr hin, State.complete_of_results]

/-- A command writes no input and no configuration (R55). -/
theorem exec_sameInputs {i : Instr} {s t : State} (h : exec i s = .next t) : SameInputs t s := by
  cases (exec_eq_complete i s).symm.trans h
  exact s.complete_sameInputs _

/-- A step writes no input and no configuration, whether it waits or completes (R55). -/
theorem step_sameInputs {s t : State} (h : step s = .next t) : SameInputs t s := by
  obtain ⟨-, hs⟩ | ⟨-, hs⟩ := step_waits_or_completes s
  · cases hs.symm.trans h
    exact ⟨rfl, rfl, rfl, rfl, rfl, rfl, rfl⟩
  · cases hs.symm.trans h
    exact s.complete_sameInputs _

theorem SameInputs.data_eq {s t : State} (h : SameInputs t s) : t.data = s.data := by
  obtain ⟨-, -, -, -, -, -, hdata⟩ := h
  exact hdata

/-- Where the inputs are the same, KEY and DATA read the same byte by byte. -/
theorem SameInputs.byteAt_eq {s t : State} (h : SameInputs t s) (a : Nat) :
    t.byteAt .key a = s.byteAt .key a ∧ t.byteAt .data a = s.byteAt .data a := by
  obtain ⟨-, -, -, -, -, hkey, hdata⟩ := h
  simp only [State.byteAt, State.buffer, hkey, hdata, and_self]

/-- No host move writes the configuration, reset included (R22). -/
theorem hostMove_cfg {m : HostMove} {s t : State} (h : hostMove m s = .next t) : t.cfg = s.cfg := by
  by_cases hm : m = .assertReset
  · subst hm
    cases h
    exact State.cleared_cfg s.cfg .resetHeld
  · exact (hostMove_keeps_results hm h).1

/-- Settles O11: commands overwrite the result registers and read none of them; DATA and OUT are separate fields, and the copy is
the host's write of one from the other. -/
theorem commandsNeverReadResults : Obligations.CommandsNeverReadResults := by
  refine ⟨exec_of_results, fun i s t h => (exec_sameInputs h).data_eq, ?_, fun s hp => writeInput_idle _ hp⟩
  intro s t b h
  obtain ⟨-, rfl⟩ := writeInput_next h
  exact ⟨rfl, rfl⟩

/-- Settles O12: completion leaves the block idle with its inputs in place, so the outcome of the same word is the same. -/
theorem commandsAreIdempotent : Obligations.CommandsAreIdempotent := by
  intro s t hp hstep
  cases (step_of_inFlight hp).symm.trans hstep
  refine ⟨writeCmd_idle s.cmd (s.complete_phase _), ?_⟩
  rw [step_of_inFlight (State.withCommand_phase _ _),
    issuedOutcome_congr (s.complete_withCommand_sameInputs (issuedOutcome s)), State.complete_withCommand_complete]

/-- Settles O13: steps and commands keep the inputs, hence their bytes; host moves keep the configuration. -/
theorem inputsAndConfigUnchanged : Obligations.InputsAndConfigUnchanged :=
  ⟨fun _ _ h => ⟨step_sameInputs h, (step_sameInputs h).byteAt_eq⟩, fun _ _ _ => exec_sameInputs,
    fun _ _ _ => hostMove_cfg⟩

/-- Settles O53: host moves but reset write no result register, and a step without a command waits. -/
theorem resultsPersistUntilNextCompletion : Obligations.ResultsPersistUntilNextCompletion := by
  refine ⟨fun m s t hm hmove => (hostMove_keeps_results hm hmove).2, ?_⟩
  intro s t hp hstep
  obtain ⟨-, hs⟩ | ⟨hp', -⟩ := step_waits_or_completes s
  · cases hs.symm.trans hstep
    exact ⟨rfl, rfl, rfl, rfl⟩
  · exact absurd hp' hp

end Sys2Proof.Machine
end

