-- ==== Sys2Proof/Proofs/BufferReads.lean ====
section
/-! PROOFS. Reads of the buffers (spec/20_memory.md R40, R41, R44 to R46): a read and a chunk byte by byte, and the words of a key
and of a block. -/

namespace Sys2Proof.Machine

/-- A read of a buffer, byte by byte (R41). -/
theorem memRead_getElem? (b : List Byte) (a n : Nat) (h : a + n ≤ b.length) {j : Nat} (hj : j < n) :
    (memRead b a n h)[j]? = b[a + j]? := by
  rw [← Vector.getElem?_toList, memRead_toList, List.getElem?_take_of_lt hj, List.getElem?_drop]

/-- A space has no byte exactly from its length on (R40, log 10). -/
theorem State.byteAt_eq_none_iff (s : State) (sp : Space) (a : Nat) :
    s.byteAt sp a = none ↔ (s.buffer sp).length ≤ a :=
  List.getElem?_eq_none_iff

/-- Chunk `c` is the read of 8 bytes at `8 * c` (R46). -/
theorem chunks_getElem?_eq_some {p : List Byte} {c : Nat} {b : Block} (h : (chunks p)[c]? = some b) :
    ∃ hc : 8 * c + 8 ≤ p.length, b = memRead p (8 * c) 8 hc := by
  obtain ⟨hc, hb⟩ := List.getElem?_eq_some_iff.mp h
  rw [chunks_length] at hc
  refine ⟨by omega, ?_⟩
  simp only [← hb, chunks, List.getElem_ofFn]

/-- The first word written to a block is read back as its left half. -/
theorem leftHalf_blockOf (a b : Word) : leftHalf (blockOf a b) = a :=
  le32_eq_of_bytes _ rfl rfl rfl rfl

/-- The second word written to a block is read back as its right half. -/
theorem rightHalf_blockOf (a b : Word) : rightHalf (blockOf a b) = b :=
  le32_eq_of_bytes _ rfl rfl rfl rfl

/-- Settles O25: key words and halves are `LE32` reads at fixed places. -/
theorem keyAndBlockWords : Obligations.KeyAndBlockWords :=
  ⟨fun key j => le32_toNat key (4 * j.val) _, by decide, by decide,
    fun b => ⟨le32_toNat b 0 _, le32_toNat b 4 _⟩, by decide, by decide,
    fun a b => ⟨leftHalf_blockOf a b, rightHalf_blockOf a b⟩⟩

/-- Settles O26: a chunk is a read of its buffer, and a read is the buffer's bytes in place. -/
theorem bufferReadsAndChunks : Obligations.BufferReadsAndChunks := by
  refine ⟨fun b a n h j hj => memRead_getElem? b a n h hj, State.byteAt_eq_none_iff, fun p => ⟨chunks_length p, ?_⟩⟩
  intro c b hb j hj
  obtain ⟨hc, rfl⟩ := chunks_getElem?_eq_some hb
  exact memRead_getElem? p (8 * c) 8 hc hj

end Sys2Proof.Machine
end

