-- ==== Sys2Proof/Proofs/Encoding.lean ====
section
/-! PROOFS. The encoding (spec/30_encoding.md R60 to R65). A word is its three fields laid side by side, so the decoder, which reads
the fields, and the encoder, which lays them out, are inverse: a word decodes to a command exactly when it is that command's
word. Which words are legal, and how many, follows from that. -/

namespace Sys2Proof.Machine

/-! ## The fields of a word -/

/-- R60's diagram: RSV, SH and OP are the whole of a word. -/
theorem fields_append (w : Word) : rsvField w ++ shField w ++ opField w = w := by
  have high : rsvField w ++ shField w = w.extractLsb' 4 28 := BitVec.extractLsb'_append_extractLsb'_eq_extractLsb' rfl
  have whole : w.extractLsb' 4 28 ++ opField w = w.extractLsb' 0 32 :=
    BitVec.extractLsb'_append_extractLsb'_eq_extractLsb' rfl
  rw [high, whole, BitVec.extractLsb'_eq_self]

theorem opField_toNat (w : Word) : (opField w).toNat = w.toNat % 16 := by
  simp [opField, BitVec.extractLsb'_toNat]

theorem shField_toNat (w : Word) : (shField w).toNat = w.toNat / 16 % 32 := by
  simp [shField, BitVec.extractLsb'_toNat, Nat.shiftRight_eq_div_pow]

theorem rsvField_toNat (w : Word) : (rsvField w).toNat = w.toNat / 512 := by
  have top : w.toNat / 512 < 2 ^ 23 := by omega
  simpa [rsvField, BitVec.extractLsb'_toNat, Nat.shiftRight_eq_div_pow] using top

/-! ## The fields of a command's word -/

@[simp] theorem opField_encode (i : Instr) : opField (encode i) = opcode i :=
  BitVec.extractLsb'_append_eq_right

@[simp] theorem shField_encode (i : Instr) : shField (encode i) = shiftAmount i :=
  (BitVec.extractLsb'_append_eq_of_le (by decide)).trans BitVec.extractLsb'_append_eq_right

@[simp] theorem rsvField_encode (i : Instr) : rsvField (encode i) = 0#23 :=
  (BitVec.extractLsb'_append_eq_of_le (by decide)).trans BitVec.extractLsb'_append_eq_left

/-- A word with RSV = 0 and the OP and SH of a command is that command's word. -/
theorem encode_eq_of_fields {w : Word} {i : Instr} (hrsv : rsvField w = 0#23) (hsh : shField w = shiftAmount i)
    (hop : opField w = opcode i) : encode i = w := by
  rw [encode, ← hrsv, ← hop, ← hsh, fields_append]

/-! ## The decoder -/

/-- A command that the list of R65 gives for an OP has that OP, and SH = 0. -/
theorem plainCommand_fields {op : BitVec 4} {i : Instr} (h : plainCommand op = some i) :
    opcode i = op ∧ shiftAmount i = 0#5 := by
  have listed : ∀ op : BitVec 4, ∀ i ∈ plainCommand op, opcode i = op ∧ shiftAmount i = 0#5 := by decide
  exact listed op i h

/-- Settles O1: with RSV = 0, OP 0x2 is ROTL with the amount in SH, and each other OP is listed with SH = 0. -/
theorem decodeOfEncode : Obligations.DecodeOfEncode := by
  intro i
  cases i with
  | rotl sh => simp [decode, opcode, shiftAmount]
  | _ => simp [decode, opcode, shiftAmount, plainCommand]

/-- Settles O2: RSV, SH and OP of a word that decodes are those of its command, and they are the whole word. -/
theorem encodeOfDecode : Obligations.EncodeOfDecode := by
  intro w i h
  unfold decode at h
  split at h
  case isTrue => cases h
  case isFalse hrsv =>
    have hrsv0 : rsvField w = 0#23 := not_not.mp hrsv
    split at h
    case isTrue hop => cases h; exact encode_eq_of_fields hrsv0 rfl hop
    case isFalse =>
      split at h
      case h_1 j hplain =>
        split at h
        case isTrue => cases h
        case isFalse hsh =>
          cases h
          obtain ⟨hop, hzero⟩ := plainCommand_fields hplain
          exact encode_eq_of_fields hrsv0 ((not_not.mp hsh).trans hzero.symm) hop.symm
      case h_2 => cases h

/-- Decoding and encoding are inverse. -/
theorem decode_eq_ok_iff {w : Word} {i : Instr} : decode w = .ok i ↔ encode i = w :=
  ⟨encodeOfDecode w i, by rintro rfl; exact decodeOfEncode i⟩

/-- The decoder is total: what it does not decode it rejects. -/
theorem decode_rejects_iff (w : Word) : (∃ r, decode w = .error r) ↔ ¬∃ i, decode w = .ok i := by
  cases decode w <;> simp

/-! ## The legal words -/

/-- The list of R65, by OP. -/
theorem exists_operandless_opcode :
    ∀ op : BitVec 4, 1 ≤ op.toNat → op.toNat ≤ 9 → op ≠ 0x2#4 → ∃ i ∈ operandless, opcode i = op := by decide

theorem shiftAmount_of_operandless : ∀ i ∈ operandless, shiftAmount i = 0#5 := by decide

/-- The decoder accepts exactly the words on which none of R64's three conditions holds. -/
theorem decodes_iff_legalWord (w : Word) : (∃ i, decode w = .ok i) ↔ legalWord w = true := by
  simp only [decode_eq_ok_iff, legalWord, rsvClear, opAssigned, shAllowed, Bool.and_eq_true, Bool.or_eq_true,
    decide_eq_true_eq, beq_iff_eq]
  constructor
  · rintro ⟨i, rfl⟩
    cases i <;> simp [opcode, shiftAmount]
  · rintro ⟨⟨hrsv, hlow, hhigh⟩, hsh⟩
    by_cases hop : opField w = 0x2#4
    · exact ⟨.rotl (shField w), encode_eq_of_fields hrsv rfl hop⟩
    · obtain ⟨i, hi, hopi⟩ := exists_operandless_opcode _ hlow hhigh hop
      have hshi : shField w = shiftAmount i := (hsh.resolve_left hop).trans (shiftAmount_of_operandless i hi).symm
      exact ⟨i, encode_eq_of_fields hrsv hshi hopi.symm⟩

/-- R64's three conditions, on the word as a number. -/
theorem legalWord_iff (w : Word) : legalWord w = true ↔
    w.toNat / 512 = 0 ∧ (1 ≤ w.toNat % 16 ∧ w.toNat % 16 ≤ 9) ∧ (w.toNat % 16 = 2 ∨ w.toNat / 16 % 32 = 0) := by
  simp [legalWord, rsvClear, opAssigned, shAllowed, ← BitVec.toNat_inj, opField_toNat, shField_toNat, rsvField_toNat,
    and_assoc]

/-- ROTL's word as R65 lists it. -/
theorem encode_rotl : ∀ sh : BitVec 5, encode (.rotl sh) = 0x2#32 ||| (sh.setWidth 32 <<< 4) := by decide

theorem rotlWord_toNat : ∀ n < 32, (0x2#32 ||| (BitVec.ofNat 32 n <<< 4)).toNat = 2 + 16 * n := by decide

/-- ROTL's words in the list of R65, as numbers. -/
theorem isRotlWord_iff (w : Word) :
    (∃ n < 32, w = 0x2#32 ||| (BitVec.ofNat 32 n <<< 4)) ↔ w.toNat < 512 ∧ w.toNat % 16 = 2 := by
  constructor
  · rintro ⟨n, hn, rfl⟩
    rw [rotlWord_toNat n hn]
    omega
  · rintro ⟨hlt, hop⟩
    have hn : w.toNat / 16 < 32 := by omega
    refine ⟨w.toNat / 16, hn, BitVec.eq_of_toNat_eq ?_⟩
    rw [rotlWord_toNat _ hn]
    omega

/-- Settles O3: the list is R64's three conditions worked out on numbers, and each command is decoded from its own word. -/
theorem legalWordsDecodeAsListed : Obligations.LegalWordsDecodeAsListed := by
  refine ⟨fun w => ?_, decodeOfEncode .subst, fun sh => encode_rotl sh ▸ decodeOfEncode (.rotl sh), decodeOfEncode .round,
    decodeOfEncode .encBlock, decodeOfEncode .decBlock, decodeOfEncode .pad, decodeOfEncode .unpad, decodeOfEncode .encMsg,
    decodeOfEncode .decMsg⟩
  have hsubst : w = 0x1#32 ↔ w.toNat = 1 := BitVec.toNat_inj.symm
  rw [decodes_iff_legalWord, legalWord_iff, isRotlWord_iff, hsubst]
  omega

/-! ## The 40 commands -/

/-- The 40 commands: the eight without an operand, and ROTL by its 32 amounts (R64). -/
def allCommands : List Instr := operandless ++ (List.finRange 32).map fun n => .rotl (BitVec.ofFin n)

theorem mem_allCommands (i : Instr) : i ∈ allCommands := by
  cases i with
  | rotl sh => exact List.mem_append_right _ (List.mem_map.mpr ⟨sh.toFin, List.mem_finRange _, rfl⟩)
  | _ => exact List.mem_append_left _ (by decide)

theorem allCommands_nodup : allCommands.Nodup := by decide

/-- No two commands have one word. -/
theorem encode_injective : Function.Injective encode := fun i j h =>
  Except.ok.inj ((decodeOfEncode i).symm.trans (h ▸ decodeOfEncode j))

/-- Settles O4: the conditions on the word as a number, the words of the 40 commands, and the completion of an illegal word. -/
theorem illegalWordEndsInIllegalCommand : Obligations.IllegalWordEndsInIllegalCommand := by
  refine ⟨fun w => ?_, ⟨allCommands.map encode, allCommands_nodup.map encode_injective, rfl, fun w => ?_⟩, ?_⟩
  · rw [decode_rejects_iff, decodes_iff_legalWord, legalWord_iff]
    omega
  · simp [decode_eq_ok_iff, mem_allCommands]
  · rintro s hp ⟨r, hr⟩
    rw [step_of_inFlight hp, issuedOutcome_of_illegal hr, State.complete_error, State.raiseError_eq_endsWith]
    rfl

/-- Settles O5: the legal words are their commands' words, and each illegal one is rejected for its field. -/
theorem specWordsDecode : Obligations.SpecWordsDecode :=
  ⟨decodeOfEncode .subst, decodeOfEncode (.rotl 11#5), decodeOfEncode (.rotl 31#5), decodeOfEncode .decBlock,
    decodeOfEncode .decMsg, by decide, by decide, by decide, by decide, by decide⟩

end Sys2Proof.Machine
end

