-- ==== Sys2Proof/Proofs/ReadsColumn.lean ====
section
/-! PROOFS. The "reads" column of R61 (spec/30_encoding.md R63): the outcome of a command is a function of the configuration and the
inputs the column lists. -/

namespace Sys2Proof.Machine

/-- A command's outcome depends on the configuration and on what the command reads alone. -/
theorem commandOutcome_of_agreeOnReads {i : Instr} {s s' : State} (hcfg : s.cfg = s'.cfg) (h : AgreeOnReads i s s') :
    commandOutcome s i = commandOutcome s' i := by
  cases i with
  | subst | rotl sh =>
    have hw0 : s.w0 = s'.w0 := h
    simp only [commandOutcome, hcfg, hw0]
  | round =>
    obtain ⟨hw0, hw1, hw2⟩ := h
    simp only [commandOutcome, hcfg, hw0, hw1, hw2]
  | encBlock | decBlock | encMsg | decMsg =>
    obtain ⟨hkey, hdata⟩ := h
    simp only [commandOutcome, blockOutcome, encMsgOutcome, decMsgOutcome, hcfg, hkey, hdata]
  | pad | unpad =>
    have hdata : s.data = s'.data := h
    simp only [commandOutcome, padOutcome, unpadDataOutcome, hcfg, hdata]

/-- Settles O14: the outcomes agree, and what a completion leaves in the result registers is its outcome's. -/
theorem unreadInputsAreIgnored : Obligations.UnreadInputsAreIgnored := by
  intro i s s' hcfg hreads
  refine ⟨_, _, exec_eq_complete i s, exec_eq_complete i s', ?_⟩
  rw [commandOutcome_of_agreeOnReads hcfg hreads]
  exact State.complete_sameResults s s' _

end Sys2Proof.Machine
end

