-- ==== Sys2Proof/Proofs/AssemblerText.lean ====
section
/-! PROOFS. Assembler text (spec/30_encoding.md R67, R69). The assembler reads a printed amount, a printed word and a printed command
as what was printed; each line of a disassembly is one of these. -/

namespace Sys2Proof.Machine

/-! ## Numbers in text -/

@[simp] theorem dropText_append (p t : List Char) : dropText p (p ++ t) = some t := by
  induction p with
  | nil => rfl
  | cons c p ih => simpa [dropText] using ih

theorem parseAmount_decText : ∀ sh : BitVec 5, parseAmount (decText sh.toNat) = some sh := by decide

theorem hexDigit_hexChar : ∀ v : Nibble, hexDigit (hexChar v) = some v.toNat := by decide

theorem hexChar_mem : ∀ v : Nibble, hexChar v ∈ "0123456789ABCDEF".toList := by decide

theorem hexText_length (w : Word) : (hexText w).length = 8 := rfl

/-- The digits printed for a word are uppercase hexadecimal. -/
theorem mem_hexText {w : Word} {c : Char} (h : c ∈ hexText w) : c ∈ "0123456789ABCDEF".toList := by
  simp only [hexText, List.mem_cons, List.not_mem_nil, or_false] at h
  obtain rfl | rfl | rfl | rfl | rfl | rfl | rfl | rfl := h <;> exact hexChar_mem _

theorem nibble_toNat (w : Word) (i : Nat) : (nibble w i).toNat = w.toNat / 2 ^ (4 * i) % 16 := by
  simp [nibble, BitVec.extractLsb'_toNat, Nat.shiftRight_eq_div_pow]

/-- The printed digits are the word's digits in base 16. -/
theorem digitsFrom_hexText (w : Word) : digitsFrom 16 hexDigit 0 (hexText w) = some w.toNat := by
  simp only [hexText, digitsFrom, hexDigit_hexChar, nibble_toNat]
  congr 1
  omega

theorem parseWord_hexText (w : Word) : parseWord ("0x".toList ++ hexText w) = some w := by
  simp only [parseWord, dropText_append, if_pos (hexText_length w), digitsFrom_hexText, Option.map_some,
    BitVec.ofNat_toNat, BitVec.setWidth_eq]

/-! ## Lines of the assembler -/

/-- A line that begins as ROTL does is no command without an operand: its amount decides. -/
theorem parseCommand_rotl (t : List Char) :
    parseCommand ("ROTL #".toList ++ t) = (parseAmount t).map fun sh => encode (.rotl sh) := by
  have hfind : operandless.find? (fun i => (mnemonic i).toList == "ROTL #".toList ++ t) = none := by
    simp [operandless, mnemonic]
  simp only [parseCommand, hfind, dropText_append]

/-- A `.word` line is no command's: the number decides. -/
theorem parseCommand_word (t : List Char) : parseCommand (".word ".toList ++ t) = parseWord t := by
  have hfind : operandless.find? (fun i => (mnemonic i).toList == ".word ".toList ++ t) = none := by
    simp [operandless, mnemonic]
  have hrotl : dropText "ROTL #".toList (".word ".toList ++ t) = none := by simp [dropText]
  simp only [parseCommand, hfind, hrotl, dropText_append]

theorem assembleLine_of_parseCommand {t : List Char} {w : Word} (h : parseCommand t = some w) :
    assembleLine t = some (.command w) := by simp only [assembleLine, h]

/-- A command printed in R67's syntax is read as its word. -/
theorem assembleLine_commandText (i : Instr) : assembleLine (commandText i) = some (.command (encode i)) := by
  apply assembleLine_of_parseCommand
  cases i with
  | rotl sh => rw [commandText, parseCommand_rotl, parseAmount_decText, Option.map_some]
  | _ => rfl

/-- A word printed as `.word` is read as the word, legal or not. -/
theorem assembleLine_hexText (w : Word) :
    assembleLine (".word 0x".toList ++ hexText w) = some (.command w) :=
  assembleLine_of_parseCommand ((parseCommand_word ("0x".toList ++ hexText w)).trans (parseWord_hexText w))

/-! ## Lines of the disassembler -/

theorem disassemble_of_decode {w : Word} {i : Instr} (h : decode w = .ok i) : disassemble w = commandText i := by
  simp only [disassemble, h]

theorem disassemble_of_illegal {w : Word} {r : IllegalWord} (h : decode w = .error r) :
    disassemble w = ".word 0x".toList ++ hexText w := by simp only [disassemble, h]

theorem disassemble_encode (i : Instr) : disassemble (encode i) = commandText i :=
  disassemble_of_decode (decodeOfEncode i)

/-- A disassembled word is read back as the word (R69). -/
theorem assembleLine_disassemble (w : Word) : assembleLine (disassemble w) = some (.command w) := by
  cases h : decode w with
  | ok i => rw [disassemble_of_decode h, assembleLine_commandText, encodeOfDecode w i h]
  | error r => rw [disassemble_of_illegal h, assembleLine_hexText]

/-- Settles O59: a legal word is printed as its command, an illegal one as its digits, and both are read back. -/
theorem assembleOfDisassemble : Obligations.AssembleOfDisassemble := by
  refine ⟨disassemble_encode .subst, fun sh => encode_rotl sh ▸ disassemble_encode (.rotl sh), disassemble_encode .round,
    disassemble_encode .encBlock, disassemble_encode .decBlock, disassemble_encode .pad, disassemble_encode .unpad,
    disassemble_encode .encMsg, disassemble_encode .decMsg, assembleLine_disassemble, ?_⟩
  rintro w ⟨r, hr⟩
  exact ⟨hexText w, disassemble_of_illegal hr, hexText_length w, fun _ => mem_hexText⟩

/-- Settles O60: the table's lines are the printed commands; the hexadecimal amount, the `.word` line and the refusals are read out. -/
theorem assemblerTable : Obligations.AssemblerTable :=
  ⟨assembleLine_commandText .subst, fun sh => encode_rotl sh ▸ assembleLine_commandText (.rotl sh), by decide,
    assembleLine_commandText .round, assembleLine_commandText .encBlock, assembleLine_commandText .decBlock,
    assembleLine_commandText .pad, assembleLine_commandText .unpad, assembleLine_commandText .encMsg,
    assembleLine_commandText .decMsg, assembleLine_hexText 0x80000004#32, by decide, by decide, by decide⟩

end Sys2Proof.Machine
end

