-- ==== Sys2Proof/Proofs/Substitution.lean ====
section
/-! PROOFS. Substitution (spec/40_round_engine.md R81, R82, R87). `subst` puts each row's entry in the place of its nibble; no two
places share a bit, so a nibble of the result is one row's entry, and a word is its nibbles. -/

namespace Sys2Proof.Machine

/-! ## Nibbles in their places -/

theorem nibble_getLsbD (x : Word) (i : Nat) {b : Nat} (hb : b < 4) : (nibble x i).getLsbD b = x.getLsbD (4 * i + b) := by
  simp [nibble, hb]

/-- A word is its eight nibbles. -/
theorem eq_of_nibble_eq {x y : Word} (h : ∀ i : Fin 8, nibble x i.val = nibble y i.val) : x = y := by
  apply BitVec.eq_of_getLsbD_eq
  intro k hk
  have place : 4 * (k / 4) + k % 4 = k := Nat.div_add_mod k 4
  have hbit : k % 4 < 4 := Nat.mod_lt k (by decide)
  have hnibble : nibble x (k / 4) = nibble y (k / 4) := h ⟨k / 4, by omega⟩
  rw [← place, ← nibble_getLsbD x _ hbit, ← nibble_getLsbD y _ hbit, hnibble]

/-- A nibble shifted to place `i` has bits in place `i` alone. -/
theorem placed_getLsbD (v : Nibble) (i j : Fin 8) {b : Nat} (hb : b < 4) :
    (v.setWidth 32 <<< (4 * i.val)).getLsbD (4 * j.val + b) = (decide (i = j) && v.getLsbD b) := by
  rw [BitVec.getLsbD_shiftLeft, BitVec.getLsbD_setWidth]
  obtain hlt | heq | hgt := lt_trichotomy i j
  · have high : 4 ≤ 4 * j.val + b - 4 * i.val := by omega
    simp [hlt.ne, BitVec.getLsbD_of_ge v _ high]
  · subst heq
    have inNibble : b < 32 := by omega
    have inWord : 4 * i.val + b < 32 := by omega
    simp [inNibble, inWord]
  · have below : 4 * j.val + b < 4 * i.val := by omega
    simp [hgt.ne', below]

theorem nibble_placed (v : Nibble) (i : Fin 8) : nibble (v.setWidth 32 <<< (4 * i.val)) i.val = v := by
  apply BitVec.eq_of_getLsbD_eq
  intro b hb
  simp [nibble_getLsbD _ _ hb, placed_getLsbD v i i hb]

/-- A bit of a disjunction over a list is set where it is set in one of the words. -/
theorem getLsbD_foldl_or {ι : Type} (f : ι → Word) (l : List ι) (y : Word) (k : Nat) :
    (l.foldl (fun y i => y ||| f i) y).getLsbD k = (y.getLsbD k || l.any fun i => (f i).getLsbD k) := by
  induction l generalizing y with
  | nil => simp
  | cons i l ih => rw [List.foldl_cons, ih, BitVec.getLsbD_or, List.any_cons, Bool.or_assoc]

/-! ## The substituted word -/

/-- Row `i` acts on nibble `i`, and its entry stands where the nibble stood (R81). -/
theorem nibble_subst (t : SboxTable) (x : Word) (i : Fin 8) :
    nibble (subst t x) i.val = sboxEntry t i (nibble x i.val) := by
  apply BitVec.eq_of_getLsbD_eq
  intro b hb
  rw [nibble_getLsbD _ _ hb, subst, getLsbD_foldl_or, Bool.eq_iff_iff]
  simp [placed_getLsbD _ _ i hb]

theorem subst_sboxId (x : Word) : subst sboxId x = x := by
  have identity : ∀ (i : Fin 8) (v : Nibble), sboxEntry sboxId i v = v := by decide
  exact eq_of_nibble_eq fun i => (nibble_subst sboxId x i).trans (identity i _)

/-- The rows of a configuration's table are bijections, so no two words have one substituted word. -/
theorem subst_bijective (c : Config) : Function.Bijective fun x : Word => subst c.sbox x := by
  rw [← Finite.injective_iff_bijective]
  intro x y hxy
  apply eq_of_nibble_eq
  intro i
  have entries : sboxEntry c.sbox i (nibble x i.val) = sboxEntry c.sbox i (nibble y i.val) := by
    rw [← nibble_subst, ← nibble_subst]
    exact congrArg (nibble · i.val) hxy
  exact (sboxRowsAreBijections.1 c i).injective entries

/-- Settles O17: it is the law of a nibble of `subst`, the entry written as the table's. -/
theorem substActsNibbleByNibble : Obligations.SubstActsNibbleByNibble := nibble_subst

/-- Settles O18: SUBST writes `subst` of W0, whose nibbles are the rows' entries; a nibble of 0 is 0. -/
theorem substCommandWritesSubstitutedWord : Obligations.SubstCommandWritesSubstitutedWord := by
  refine ⟨by decide, fun s => ⟨_, exec_subst_eq s, nibble_subst _ _⟩, ?_, ?_, subst_bijective, ?_⟩
  · intro s hid
    rw [exec_subst_eq, hid, subst_sboxId]
  · intro s hzero
    refine ⟨_, exec_subst_eq s, fun i => ?_⟩
    have zeroNibble : nibble s.w0 i.val = 0#4 := by simp [hzero, nibble]
    rw [nibble_subst, zeroNibble]
    rfl
  · intro s hgk hzero
    have gkZeros : subst sboxGk 0x00000000#32 = 0x1D4675E4#32 := by decide
    rw [exec_subst_eq, hgk, hzero, gkZeros]

end Sys2Proof.Machine
end

