-- ==== Sys2Proof/Proofs/Rotation.lean ====
section
/-! PROOFS. Rotation (spec/40_round_engine.md R83, R84, R87). Bit `i` moves to bit `(i + s) mod 32`, and every bit of the result is
reached so; what a rotation undoes and what it keeps is read off the bits. -/

namespace Sys2Proof.Machine

theorem rotl_zero (x : Word) : rotl x 0 = x := rfl

theorem rotl_of_ne_zero (x : Word) {s : Fin 32} (h : s.val ≠ 0) : rotl x s = (x <<< s.val) ||| (x >>> (32 - s.val)) :=
  if_neg h

/-- R83's bit rule: bits that pass the top come from the right shift, the others from the left shift. -/
theorem rotl_getLsbD (x : Word) (s i : Fin 32) : (rotl x s).getLsbD ((i.val + s.val) % 32) = x.getLsbD i.val := by
  by_cases hs : s.val = 0
  · rw [rotl, if_pos hs, hs, Nat.add_zero, Nat.mod_eq_of_lt i.isLt]
  · rw [rotl_of_ne_zero x hs, BitVec.getLsbD_or, BitVec.getLsbD_shiftLeft, BitVec.getLsbD_ushiftRight]
    by_cases wraps : i.val + s.val < 32
    · have position : (i.val + s.val) % 32 = i.val + s.val := Nat.mod_eq_of_lt wraps
      have beyond : 32 ≤ 32 - s.val + (i.val + s.val) := by omega
      simp [position, wraps, BitVec.getLsbD_of_ge x _ beyond]
    · have position : (i.val + s.val) % 32 = i.val + s.val - 32 := by omega
      have below : i.val + s.val - 32 < s.val := by omega
      have source : 32 - s.val + (i.val + s.val - 32) = i.val := by omega
      simp [position, below, source]

/-- Rotations by amounts that add up to 0 modulo 32 undo each other (R87). -/
theorem rotl_rotl_cancel (x : Word) {s s' : Fin 32} (h : s'.val = (32 - s.val) % 32) : rotl (rotl x s) s' = x := by
  apply BitVec.eq_of_getLsbD_eq
  intro i hi
  have first := rotl_getLsbD x s ⟨i, hi⟩
  have second := rotl_getLsbD (rotl x s) s' ⟨(i + s.val) % 32, Nat.mod_lt _ (by decide)⟩
  have returns : ((i + s.val) % 32 + s'.val) % 32 = i := by omega
  rw [← first, ← second, returns]

theorem rotl_zeros : ∀ s : Fin 32, rotl 0#32 s = 0#32 := by decide

theorem rotl_ones : ∀ s : Fin 32, rotl 0xFFFFFFFF#32 s = 0xFFFFFFFF#32 := by decide

/-- Settles O19: the two arms of the definition, the bit rule, and a shift by 32 that leaves no bit. -/
theorem rotlMovesEveryBit : Obligations.RotlMovesEveryBit := by
  intro x s
  refine ⟨fun hs => if_pos hs, rotl_of_ne_zero x, rotl_getLsbD x s, ?_⟩
  rw [BitVec.shiftLeft_zero, BitVec.ushiftRight_eq_zero (Nat.le_refl 32), BitVec.or_zero, rotl_zero]

/-- What ROTL does on a known word, given the word rotated. -/
theorem exec_rotl_of_w0 {sh : BitVec 5} {s : State} {w v : Word} (hw : s.w0 = w) (hv : rotl w ⟨sh.toNat, sh.isLt⟩ = v) :
    exec (.rotl sh) s = .next (s.endsWith v 0#32 [] 0#3) := by
  rw [exec_rotl_eq, hw, hv]

/-- Settles O20: ROTL writes `rotl` of W0 by its amount. -/
theorem rotlCommandRotatesLeft : Obligations.RotlCommandRotatesLeft := by
  refine ⟨encode_rotl, fun sh s => ⟨_, exec_rotl_eq sh s, rotl_getLsbD _ _, ?_, ?_, ?_⟩, ?_, ?_, ?_⟩
  · rintro rfl
    exact rotl_zero s.w0
  · intro h
    rw [h, rotl_zeros]
  · intro h
    rw [h, rotl_ones]
  · exact fun _ h => exec_rotl_of_w0 h (by decide)
  · exact fun _ h => exec_rotl_of_w0 h (by decide)
  · exact fun _ h => exec_rotl_of_w0 h (by decide)

end Sys2Proof.Machine
end

