-- ==== Sys2Proof/Proofs/Rounds.lean ====
section
/-! PROOFS. A round (spec/40_round_engine.md R80, R85 to R87). The mask it XORs into one half depends on the other half, which it
hands on, so the same mask is computed again on the way back. -/

namespace Sys2Proof.Machine

theorem gostRound_eq (t : SboxTable) (l r k : Word) : gostRound t (l, r) k = (r ^^^ roundMask t l k, l) := rfl

/-- The mask depends on the half and the key through their sum alone. -/
theorem roundMask_of_sum {t : SboxTable} {half k half' k' : Word} (h : half + k = half' + k') :
    roundMask t half k = roundMask t half' k' := by rw [roundMask, h, roundMask]

/-- The same round on swapped halves gives the halves back, swapped (R87). -/
theorem gostRound_swap (t : SboxTable) (l r k : Word) : gostRound t (l, r ^^^ roundMask t l k) k = (r, l) := by
  rw [gostRound_eq, BitVec.xor_assoc, BitVec.xor_self, BitVec.xor_zero]

/-- Settles O21: ROUND writes W1 with the mask of W0 and W2; the sum modulo 2^32 is addition on words. -/
theorem roundCommandRunsOneRound : Obligations.RoundCommandRunsOneRound := by
  refine ⟨by decide, gostRound_eq, ?_, ?_, ?_, ?_⟩
  · intro s
    refine ⟨_, _, fun i => ?_, rotl_getLsbD (subst s.cfg.sbox (s.w0 + s.w2)) 11, exec_round_eq s⟩
    simp only [← BitVec.add_def]
    exact nibble_subst s.cfg.sbox (s.w0 + s.w2) i
  · intro s h0 h2
    have wraps : s.w0 + s.w2 = 0#32 + 0#32 := by rw [h0, h2]; rfl
    refine ⟨s.w1 ^^^ roundMask s.cfg.sbox 0#32 0#32, ?_, exec_round_eq _⟩
    rw [exec_round_eq, roundMask_of_sum wraps, h0]
  · intro s hid h0 h1 h2
    have noMask : roundMask sboxId 0#32 0#32 = 0#32 := by decide
    rw [exec_round_eq, hid, h0, h1, h2, noMask, BitVec.xor_zero]
  · intro s hgk h0 h1 h2
    have gkExample : 0x9ABCDEF0#32 ^^^ roundMask sboxGk 0x12345678#32 0x01020304#32 = 0xF6C1E178#32 := by decide
    rw [exec_round_eq, hgk, h0, h1, h2, gkExample]

/-- Settles O22: the result of each word command is read off its meaning, which names neither KEY nor DATA. -/
theorem roundEngineNeverFails : Obligations.RoundEngineNeverFails := by
  rintro i s (rfl | ⟨sh, rfl⟩ | rfl)
  · exact ⟨_, _, exec_subst_eq s, fun _ _ => exec_subst_eq _⟩
  · exact ⟨_, _, exec_rotl_eq sh s, fun _ _ => exec_rotl_eq sh _⟩
  · exact ⟨_, _, exec_round_eq s, fun _ _ => exec_round_eq _⟩

/-- Settles O23: the rows are bijections, a rotation is undone bit by bit, and the mask of a round cancels itself. -/
theorem roundEngineIsInvertible : Obligations.RoundEngineIsInvertible := by
  refine ⟨fun c i => ?_, subst_bijective, fun x s s' => rotl_rotl_cancel x, ?_⟩
  · simpa only [nibble_subst, nibble_placed] using sboxRowsAreBijections.1 c i
  · intro t l r l' r' k hround
    obtain ⟨rfl, rfl⟩ : r ^^^ roundMask t l k = l' ∧ l = r' := Prod.mk.inj hround
    have back := gostRound_swap t l r k
    exact ⟨rfl, (congrArg Prod.fst back).symm, back⟩

end Sys2Proof.Machine
end

