-- ==== Sys2Proof/Proofs/KeySchedule.lean ====
section
/-! PROOFS. The key schedules (spec/41_block_cipher.md R100 to R102). Each is the other read backwards, and so are the lists of round
keys that they select. -/

namespace Sys2Proof.Machine

/-- R102: the decryption schedule is the encryption schedule read backwards. -/
theorem ksDec_eq_ksEnc_rev : ∀ j : Fin 32, ksDec j = ksEnc j.rev := by decide

/-- R102 the other way round. -/
theorem ksEnc_eq_ksDec_rev (j : Fin 32) : ksEnc j = ksDec j.rev := by rw [ksDec_eq_ksEnc_rev, Fin.rev_rev]

theorem roundKeys_length (key : Key) (ks : Fin 32 → Fin 8) : (roundKeys key ks).length = 32 := List.length_ofFn

theorem roundKeys_getElem? (key : Key) (ks : Fin 32 → Fin 8) (j : Fin 32) :
    (roundKeys key ks)[j.val]? = some (keyWord key (ks j)) := by
  simp only [roundKeys, List.getElem?_ofFn, Fin.is_lt, dif_pos]

/-- A schedule read backwards selects the round keys in reverse. -/
theorem roundKeys_of_rev (key : Key) {ks ks' : Fin 32 → Fin 8} (h : ∀ j, ks' j = ks j.rev) :
    roundKeys key ks' = (roundKeys key ks).reverse := by
  apply List.ext_getElem
  · rw [List.length_reverse, roundKeys_length, roundKeys_length]
  · intro j hj hj'
    simp only [roundKeys, List.getElem_reverse, List.getElem_ofFn, h, List.length_ofFn]
    congr 2
    ext
    simp only [Fin.val_rev]
    omega

/-- Where all key words are equal, the schedule does not matter (R106). -/
theorem roundKeys_of_equal_words {key : Key} (h : ∀ j : Fin 8, keyWord key j = keyWord key 0) (ks ks' : Fin 32 → Fin 8) :
    roundKeys key ks = roundKeys key ks' := by
  simp only [roundKeys, h (ks _), h (ks' _)]

/-- Settles O27: the lists are the schedules evaluated, the formulas are their definitions. -/
theorem keySchedulesAsListed : Obligations.KeySchedulesAsListed := by
  refine ⟨by decide, by decide, fun _ => rfl, fun _ => rfl, ?_⟩
  intro j j' hj
  have mirrored : j' = j.rev := Fin.ext (by rw [hj, Fin.val_rev]; omega)
  rw [mirrored, ksDec_eq_ksEnc_rev]

end Sys2Proof.Machine
end

