-- ==== Sys2Proof/Proofs/BlockTransform.lean ====
section
/-! PROOFS. The block transform (spec/41_block_cipher.md R103 to R105, R108). A round on the swapped halves of its own result gives
back its operands, swapped; so the rounds under the reversed keys undo the rounds, and writing the halves R then L is the swap. -/

namespace Sys2Proof.Machine

/-! ## Halves of a block -/

/-- The bytes of `LE32` are the bytes it read (R11). -/
theorem toLE32_le32 {n : Nat} (b : Vector Byte n) (a : Nat) (h : a + 4 ≤ n) :
    toLE32 (le32 b a h) = #v[b[a], b[a + 1], b[a + 2], b[a + 3]] := by
  have toNat_injective : Function.Injective (BitVec.toNat : Byte → Nat) := fun _ _ => BitVec.eq_of_toNat_eq
  apply Vector.toList_inj.mp
  apply toNat_injective.list_map
  rw [toLE32_toNat, le32_toNat]
  simp only [Vector.toList_mk, List.map_cons, List.map_nil, List.cons.injEq, and_true]
  omega

/-- A block is its halves written back. -/
theorem blockOf_halves (b : Block) : blockOf (leftHalf b) (rightHalf b) = b := by
  rw [blockOf, leftHalf, rightHalf, toLE32_le32, toLE32_le32]
  apply Vector.ext
  intro i hi
  interval_cases i <;> rfl

/-! ## Runs of rounds -/

theorem runRounds_cons (t : SboxTable) (k : Word) (ks : List Word) (h : Word × Word) :
    runRounds t (k :: ks) h = runRounds t ks (gostRound t h k) := rfl

theorem runRounds_concat (t : SboxTable) (ks : List Word) (k : Word) (h : Word × Word) :
    runRounds t (ks ++ [k]) h = gostRound t (runRounds t ks h) k := List.foldl_concat ..

/-- Rounds under the reversed keys, on the swapped result, give back the swapped operands (R108). -/
theorem runRounds_reverse_swap (t : SboxTable) (ks : List Word) (h : Word × Word) :
    runRounds t ks.reverse (runRounds t ks h).swap = h.swap := by
  induction ks generalizing h with
  | nil => rfl
  | cons k ks ih =>
    rw [List.reverse_cons, runRounds_concat, runRounds_cons, ih]
    exact gostRound_swap t h.1 h.2 k

/-! ## The transform -/

/-- What the rounds leave, read off the written block: its halves are the rounds' result, swapped. -/
theorem halves_blockCore (t : SboxTable) (b : Block) (key : Key) (ks : Fin 32 → Fin 8) :
    (leftHalf (blockCore t b key ks), rightHalf (blockCore t b key ks)) =
      (runRounds t (roundKeys key ks) (leftHalf b, rightHalf b)).swap := by
  rw [blockCore, leftHalf_blockOf, rightHalf_blockOf]
  rfl

/-- The transform under a schedule read backwards undoes the transform. -/
theorem blockCore_blockCore (t : SboxTable) (b : Block) (key : Key) {ks ks' : Fin 32 → Fin 8} (h : ∀ j, ks' j = ks j.rev) :
    blockCore t (blockCore t b key ks) key ks' = b := by
  have undone : runRounds t (roundKeys key ks')
      (leftHalf (blockCore t b key ks), rightHalf (blockCore t b key ks)) = (rightHalf b, leftHalf b) := by
    rw [halves_blockCore, roundKeys_of_rev key h, runRounds_reverse_swap, Prod.swap_prod_mk]
  rw [blockCore, undone, blockOf_halves]

theorem decryptBlock_encryptBlock (t : SboxTable) (b : Block) (k : Key) : decryptBlock t (encryptBlock t b k) k = b :=
  blockCore_blockCore t b k ksDec_eq_ksEnc_rev

theorem encryptBlock_decryptBlock (t : SboxTable) (b : Block) (k : Key) : encryptBlock t (decryptBlock t b k) k = b :=
  blockCore_blockCore t b k ksEnc_eq_ksDec_rev

/-- Equal key words make one transform of the two (R106). -/
theorem encryptBlock_eq_decryptBlock (t : SboxTable) (b : Block) {k : Key}
    (h : ∀ j : Fin 8, keyWord k j = keyWord k 0) : encryptBlock t b k = decryptBlock t b k := by
  rw [encryptBlock, decryptBlock, blockCore, blockCore, roundKeys_of_equal_words h ksEnc ksDec]

/-- The halves after `n` rounds of the transform. -/
def halvesAfter (t : SboxTable) (b : Block) (key : Key) (ks : Fin 32 → Fin 8) (n : Nat) : Word × Word :=
  runRounds t ((roundKeys key ks).take n) (leftHalf b, rightHalf b)

/-- Round `j` works on what the rounds before it left, with the key word its schedule selects (R103). -/
theorem halvesAfter_succ (t : SboxTable) (b : Block) (key : Key) (ks : Fin 32 → Fin 8) (j : Fin 32) :
    halvesAfter t b key ks (j.val + 1) = gostRound t (halvesAfter t b key ks j.val) (keyWord key (ks j)) := by
  rw [halvesAfter, List.take_add_one, roundKeys_getElem?, Option.toList_some, runRounds_concat, halvesAfter]

theorem blockCore_eq_halvesAfter (t : SboxTable) (b : Block) (key : Key) (ks : Fin 32 → Fin 8) :
    blockCore t b key ks = blockOf (halvesAfter t b key ks 32).2 (halvesAfter t b key ks 32).1 := by
  rw [halvesAfter, List.take_of_length_le (roundKeys_length key ks).le, blockCore]

/-- Settles O28: the trace is that of the halves after each round. -/
theorem blockCoreIsThirtyTwoRounds : Obligations.BlockCoreIsThirtyTwoRounds := by
  refine ⟨fun t b key ks => ⟨halvesAfter t b key ks, rfl, halvesAfter_succ t b key ks, ?_⟩, fun _ _ _ => rfl,
    fun _ _ _ => rfl⟩
  rw [blockCore_eq_halvesAfter, blockOf, Vector.toList_append]

/-- Settles O31: each schedule is the other read backwards. -/
theorem blockRoundTrip : Obligations.BlockRoundTrip :=
  fun t b k => ⟨decryptBlock_encryptBlock t b k, encryptBlock_decryptBlock t b k⟩

end Sys2Proof.Machine
end

