-- ==== Sys2Proof/Proofs/BlockCommands.lean ====
section
/-! PROOFS. ENC_BLOCK and DEC_BLOCK (spec/41_block_cipher.md R106 to R108). The two share their checks, so each way a block command
can complete is said once, for any transform. -/

namespace Sys2Proof.Machine

/-! ## How a block command completes -/

/-- Any other block is refused once the key is accepted (R156). -/
theorem blockOutcome_badBlock (s : State) (f : Block → Key → Block) (hk : s.key.length = 32) (hd : s.data.length ≠ 8) :
    blockOutcome s f = .error .invalidBlockLength := by simp [blockOutcome, hk, hd]

theorem complete_blockOutcome_ok {s : State} {b : Block} {k : Key} (f : Block → Key → Block) (hk : s.key = k.toList)
    (hd : s.data = b.toList) : s.complete (blockOutcome s f) = s.endsWith 0#32 0#32 (f b k).toList 0#3 := by
  rw [blockOutcome_ok s f b k hk hd]
  rfl

theorem complete_blockOutcome_badKey {s : State} (f : Block → Key → Block) (hk : s.key.length ≠ 32) :
    s.complete (blockOutcome s f) = s.endsWith 0#32 0#32 [] 2#3 := by
  rw [blockOutcome_badKey s f hk]
  rfl

theorem complete_blockOutcome_badBlock {s : State} (f : Block → Key → Block) (hk : s.key.length = 32)
    (hd : s.data.length ≠ 8) : s.complete (blockOutcome s f) = s.endsWith 0#32 0#32 [] 5#3 := by
  rw [blockOutcome_badBlock s f hk hd]
  rfl

theorem exec_encBlock_ok {s : State} {b : Block} {k : Key} (hk : s.key = k.toList) (hd : s.data = b.toList) :
    exec .encBlock s = .next (s.endsWith 0#32 0#32 (encryptBlock s.cfg.sbox b k).toList 0#3) := by
  rw [exec_encBlock_eq, complete_blockOutcome_ok _ hk hd]

theorem exec_decBlock_ok {s : State} {b : Block} {k : Key} (hk : s.key = k.toList) (hd : s.data = b.toList) :
    exec .decBlock s = .next (s.endsWith 0#32 0#32 (decryptBlock s.cfg.sbox b k).toList 0#3) := by
  rw [exec_decBlock_eq, complete_blockOutcome_ok _ hk hd]

/-! ## The commands -/

/-- Settles O29: the three completions of a block command with `encryptBlock`, and its vectors evaluated. -/
theorem encBlockCommandEncryptsBlock : Obligations.EncBlockCommandEncryptsBlock := by
  refine ⟨by decide, fun s b k hk hd => ⟨exec_encBlock_ok hk hd, Vector.length_toList⟩, ?_, ?_, by decide,
    fun t b k => encryptBlock_eq_decryptBlock t b, by decide⟩
  · intro s hk
    rw [exec_encBlock_eq, complete_blockOutcome_badKey _ hk]
  · intro s hk hd
    rw [exec_encBlock_eq, complete_blockOutcome_badBlock _ hk hd]

/-- Settles O30: the three completions of a block command with `decryptBlock`, the round trip, and its vector evaluated. -/
theorem decBlockCommandDecryptsBlock : Obligations.DecBlockCommandDecryptsBlock := by
  refine ⟨by decide, fun s b k hk hd => ⟨exec_decBlock_ok hk hd, encryptBlock_decryptBlock s.cfg.sbox b k⟩, ?_, ?_,
    by decide⟩
  · intro s hk
    rw [exec_decBlock_eq, complete_blockOutcome_badKey _ hk]
  · intro s hk hd
    rw [exec_decBlock_eq, complete_blockOutcome_badBlock _ hk hd]

/-! ## The host's round trip -/

/-- The line with ENC_BLOCK's word, on an idle block that accepts its key and its block. -/
theorem runLine_encBlock {s : State} {b : Block} {k : Key} (hp : s.phase = .idle) (hk : s.key = k.toList)
    (hd : s.data = b.toList) : runLine (.command 0x00000004#32) s =
      .next ((s.withCommand 0x00000004#32).endsWith 0#32 0#32 (encryptBlock s.cfg.sbox b k).toList 0#3) :=
  (transact_idle hp (decodeOfEncode .encBlock)).trans (exec_encBlock_ok hk hd)

/-- The line with DEC_BLOCK's word, on an idle block that accepts its key and its block. -/
theorem runLine_decBlock {s : State} {b : Block} {k : Key} (hp : s.phase = .idle) (hk : s.key = k.toList)
    (hd : s.data = b.toList) : runLine (.command 0x00000005#32) s =
      .next ((s.withCommand 0x00000005#32).endsWith 0#32 0#32 (decryptBlock s.cfg.sbox b k).toList 0#3) :=
  (transact_idle hp (decodeOfEncode .decBlock)).trans (exec_decBlock_ok hk hd)

/-- A program of two lines with the copy of OUT to DATA between them: the second works on what the first left in OUT. -/
theorem runProgram_copy_between {l l' : HostLine} {s t u : State} (first : runLine l s = .next t) (hp : t.phase = .idle)
    (second : runLine l' { t with data := t.out } = .next u) :
    runProgram [l, .statement .copyOutToData, l'] s = .next u := by
  have copy : runLine (.statement .copyOutToData) t = .next { t with data := t.out } := writeInput_idle _ hp
  rw [runProgram_cons_next first, runProgram_cons_next copy, runProgram_cons_next second]
  rfl

/-- Settles O32: the second command works on the ciphertext that the copy put into DATA. -/
theorem encBlockThenDecBlockRestoresData : Obligations.EncBlockThenDecBlockRestoresData := by
  intro s b k hp hk hd
  refine ⟨_, runProgram_copy_between (runLine_encBlock hp hk hd) rfl (runLine_decBlock rfl hk rfl), ?_, rfl, rfl, rfl,
    rfl, rfl, rfl⟩
  rw [hd]
  exact congrArg Vector.toList (decryptBlock_encryptBlock s.cfg.sbox b k)

end Sys2Proof.Machine
end

