-- ==== Sys2Proof/Proofs/Padding.lean ====
section
/-! PROOFS. The padding and its two removals (spec/42_message_codec.md R120 to R122). Both removals strip as many bytes as the last
byte says; the strict one also checks the byte's range and the bytes it strips. So the strict one is read off the permissive
one. -/

namespace Sys2Proof.Machine

/-! ## The padding -/

theorem padLen_mem_range (n : Nat) : 1 ≤ padLen n ∧ padLen n ≤ 8 := by
  unfold padLen
  omega

/-- The padding fills the last block, which is a block of its own where 8 divides the length. -/
theorem pad_length_eq_blocks (d : List Byte) : (pad d).length = 8 * (d.length / 8 + 1) := by
  rw [pad_length, padLen]
  omega

/-- Settles O33: `padLen` is the number of bytes appended. -/
theorem padAppendsPadLenBytes : Obligations.PadAppendsPadLenBytes := by
  intro d
  obtain ⟨hpos, hle⟩ := padLen_mem_range d.length
  have hlen := pad_length_eq_blocks d
  exact ⟨padLen d.length, hpos, hle, rfl, rfl, rfl, hlen, by omega, by omega⟩

/-! ## Permissive unpadding -/

theorem unpadPermissive_concat (p : List Byte) (last : Byte) :
    unpadPermissive (p ++ [last]) =
      if last.toNat = 0 ∨ last.toNat > p.length + 1 then none
      else some ((p ++ [last]).take (p.length + 1 - last.toNat)) := by
  simp [unpadPermissive]

/-- What the permissive unpadding strips is a tail as long as its last byte says (R122). -/
theorem unpadPermissive_eq_some_iff (p r : List Byte) :
    unpadPermissive p = some r ↔
      ∃ (q : List Byte) (last : Byte), p = r ++ q ++ [last] ∧ q.length + 1 = last.toNat := by
  constructor
  · intro h
    obtain rfl | ⟨p, last, rfl⟩ := p.eq_nil_or_concat'
    · cases h
    · rw [unpadPermissive_concat] at h
      split at h
      · cases h
      · cases h
        refine ⟨p.drop (p.length + 1 - last.toNat), last, ?_, ?_⟩
        · rw [List.take_append_of_le_length (by omega), List.take_append_drop]
        · rw [List.length_drop]
          omega
  · rintro ⟨q, last, rfl, hq⟩
    rw [unpadPermissive_concat, if_neg (by simp; omega)]
    simp [← hq, show r.length + q.length + 1 - (q.length + 1) = r.length by omega]

/-- Settles O35: the permissive unpadding strips a tail as long as its last byte says. -/
theorem unpadPermissiveStripsLastByteMany : Obligations.UnpadPermissiveStripsLastByteMany :=
  ⟨unpadPermissive_eq_some_iff, fun _ => rfl⟩

/-! ## Strict unpadding -/

/-- What the strict unpadding accepts, the permissive one accepts with the same result. -/
theorem unpadPermissive_of_unpadStrict {p r : List Byte} (h : unpadStrict p = some r) : unpadPermissive p = some r := by
  obtain rfl | ⟨p, last, rfl⟩ := p.eq_nil_or_concat'
  · cases h
  · simp only [unpadStrict, List.getLast?_concat, List.length_append, List.length_singleton] at h
    split at h
    · cases h
    · next hrange =>
      split at h
      · cases h
        rw [unpadPermissive_concat, if_neg (by omega)]
      · cases h

/-- On a tail as long as its last byte says, the strict unpadding checks that byte's range and the rest of the tail (R121). -/
theorem unpadStrict_of_tail (r q : List Byte) {last : Byte} (hq : q.length + 1 = last.toNat) :
    unpadStrict (r ++ q ++ [last]) = if last.toNat ≤ 8 ∧ ∀ b ∈ q, b = last then some r else none := by
  have hlen : (r ++ q ++ [last]).length - last.toNat = r.length := by simp; omega
  have hdrop : (r ++ q ++ [last]).drop r.length = q ++ [last] := by simp
  have htake : (r ++ q ++ [last]).take r.length = r := by simp
  simp only [unpadStrict, List.getLast?_concat, hlen, hdrop, htake]
  by_cases h8 : last.toNat ≤ 8
  · rw [if_neg (by simp; omega)]
    simp [h8]
  · rw [if_pos (by omega), if_neg (by simp [h8])]

/-- The bytes before the last one of a padding are equal to it. -/
theorem replicate_eq_tail {n : Nat} {q : List Byte} {last : Byte} (hq : q.length + 1 = n) (h : ∀ b ∈ q, b = last) :
    List.replicate n last = q ++ [last] := by
  rw [← hq, List.replicate_succ', ← List.eq_replicate_of_mem h]

/-- What the strict unpadding strips is a padding (R121). -/
theorem unpadStrict_eq_some_iff (p r : List Byte) :
    unpadStrict p = some r ↔ ∃ n : Nat, 1 ≤ n ∧ n ≤ 8 ∧ p = r ++ List.replicate n (BitVec.ofNat 8 n) := by
  constructor
  · intro h
    obtain ⟨q, last, rfl, hq⟩ := (unpadPermissive_eq_some_iff p r).mp (unpadPermissive_of_unpadStrict h)
    rw [unpadStrict_of_tail r q hq] at h
    split at h
    · next hcheck =>
      obtain ⟨hle, hall⟩ := hcheck
      refine ⟨last.toNat, by omega, hle, ?_⟩
      rw [BitVec.ofNat_toNat, BitVec.setWidth_eq, replicate_eq_tail hq hall, List.append_assoc]
    · cases h
  · rintro ⟨n, hpos, hle, rfl⟩
    obtain ⟨k, rfl⟩ : ∃ k, n = k + 1 := ⟨n - 1, by omega⟩
    have hlast : (BitVec.ofNat 8 (k + 1)).toNat = k + 1 := by rw [BitVec.toNat_ofNat]; omega
    rw [List.replicate_succ', ← List.append_assoc, unpadStrict_of_tail _ _ (by rw [List.length_replicate, hlast]),
      if_pos ⟨by omega, fun b hb => List.eq_of_mem_replicate hb⟩]

/-- Settles O34: the strict unpadding strips a padding. -/
theorem unpadStrictStripsExactPadding : Obligations.UnpadStrictStripsExactPadding :=
  ⟨unpadStrict_eq_some_iff, fun _ => rfl, rfl⟩

/-! ## Unpadding a padded sequence -/

/-- The strict unpadding is the narrower of the two: both modes give its result where it has one. -/
theorem unpad_of_unpadStrict (mode : UnpadMode) {p r : List Byte} (h : unpadStrict p = some r) : unpad mode p = some r := by
  cases mode with
  | strict => exact h
  | permissive => exact unpadPermissive_of_unpadStrict h

/-- Both modes undo the padding (R130). -/
theorem unpad_pad (mode : UnpadMode) (d : List Byte) : unpad mode (pad d) = some d := by
  obtain ⟨hpos, hle⟩ := padLen_mem_range d.length
  exact unpad_of_unpadStrict mode ((unpadStrict_eq_some_iff (pad d) d).mpr ⟨padLen d.length, hpos, hle, rfl⟩)

theorem unpad_nil (mode : UnpadMode) : unpad mode [] = none := by
  cases mode with
  | strict => rfl
  | permissive => rfl

/-- A last byte of 0 is no pad length in either mode. -/
theorem unpad_concat_zero (mode : UnpadMode) (d : List Byte) : unpad mode (d ++ [0#8]) = none := by
  cases mode with
  | strict => simp [unpad, unpadStrict]
  | permissive => simp [unpad, unpadPermissive_concat]

end Sys2Proof.Machine
end

