-- ==== Sys2Proof/Proofs/MessageTransform.lean ====
section
/-! PROOFS. The message transforms (spec/42_message_codec.md R123, R124, R129, R130). Both are a block transform on each chunk; the
chunks of what it makes are the transformed chunks, so a message's ciphertext is taken apart into the blocks it was made of. -/

namespace Sys2Proof.Machine

/-! ## A block transform on each chunk -/

theorem mapChunks_eq_flatMap_map (f : Block → Block) (x : List Byte) :
    mapChunks f x = ((chunks x).map f).flatMap Vector.toList := by
  rw [mapChunks, List.flatMap_map]

theorem chunks_mapChunks (f : Block → Block) (x : List Byte) : chunks (mapChunks f x) = (chunks x).map f := by
  rw [mapChunks_eq_flatMap_map, chunks_flatMap]

/-- A transform that undoes another on every block undoes it on a sequence of whole blocks. -/
theorem mapChunks_mapChunks_of_leftInverse {f g : Block → Block} (h : Function.LeftInverse g f) {x : List Byte}
    (hx : x.length % 8 = 0) : mapChunks g (mapChunks f x) = x := by
  rw [mapChunks_eq_flatMap_map, chunks_mapChunks, List.map_map, h.comp_eq_id, List.map_id, flatMap_chunks x hx]

/-- A leading block is transformed on its own. -/
theorem mapChunks_block_append (f : Block → Block) (b : Block) (x : List Byte) :
    mapChunks f (b.toList ++ x) = (f b).toList ++ mapChunks f x := by
  rw [mapChunks, chunks_block_append, List.flatMap_cons, mapChunks]

theorem mapChunks_block (f : Block → Block) (b : Block) : mapChunks f b.toList = (f b).toList := by
  have h := mapChunks_block_append f b []
  rwa [List.append_nil, show mapChunks f [] = [] from rfl, List.append_nil] at h

/-- A chunk that lies in the first part of a sequence does not depend on the rest. -/
theorem chunks_append_getElem? (p q : List Byte) {c : Nat} (hc : c < p.length / 8) :
    (chunks (p ++ q))[c]? = (chunks p)[c]? := by
  have hc' : c < (p ++ q).length / 8 := by rw [List.length_append]; omega
  rw [List.getElem?_eq_getElem (by rwa [chunks_length]), List.getElem?_eq_getElem (by rwa [chunks_length])]
  simp only [chunks, List.getElem_ofFn, Option.some.injEq]
  apply Vector.toList_inj.mp
  rw [memRead_toList, memRead_toList, List.drop_append_of_le_length (by omega),
    List.take_append_of_le_length (by rw [List.length_drop]; omega)]

/-! ## Encryption -/

theorem chunks_encryptMessage (t : SboxTable) (m : List Byte) (k : Key) :
    chunks (encryptMessage t m k) = (chunks (pad m)).map fun b => encryptBlock t b k :=
  chunks_mapChunks _ _

/-- A ciphertext chunk is the encryption of its padded chunk: equal padded chunks, in whatever message and place, are encrypted
alike (R129). -/
theorem chunks_encryptMessage_congr (t : SboxTable) {m m' : List Byte} (k : Key) {c c' : Nat}
    (h : (chunks (pad m))[c]? = (chunks (pad m'))[c']?) :
    (chunks (encryptMessage t m k))[c]? = (chunks (encryptMessage t m' k))[c']? := by
  rw [chunks_encryptMessage, chunks_encryptMessage, List.getElem?_map, List.getElem?_map, h]

/-- Settles O36: the chunks of the ciphertext are the encrypted chunks of the padded message. -/
theorem encryptMessageIsEcb : Obligations.EncryptMessageIsEcb := by
  refine ⟨fun t m k => ⟨?_, ?_, chunks_encryptMessage t m k⟩, fun t m m' k c c' => chunks_encryptMessage_congr t k⟩
  · rw [encryptMessage, mapChunks, List.flatMap_def]
  · rw [encryptMessage_length, pad_length]

/-- The empty message is encrypted as one block of padding (R127). -/
theorem encryptMessage_nil (t : SboxTable) (k : Key) :
    encryptMessage t [] k = (encryptBlock t (Vector.replicate 8 8#8) k).toList :=
  mapChunks_block _ (Vector.replicate 8 8#8)

/-- A message of one block is encrypted as that block and a block of padding (R127). -/
theorem encryptMessage_block (t : SboxTable) (k : Key) (b : Block) :
    encryptMessage t b.toList k =
      (encryptBlock t b k).toList ++ (encryptBlock t (Vector.replicate 8 8#8) k).toList := by
  have hpad : pad b.toList = b.toList ++ (Vector.replicate 8 8#8).toList := by simp [pad, padLen]
  rw [encryptMessage, hpad, mapChunks_block_append, mapChunks_block]

/-- Equal whole chunks of a message are encrypted alike (R129). -/
theorem chunks_encryptMessage_of_message_chunks (t : SboxTable) (k : Key) (m : List Byte) {c c' : Nat}
    (hc : c < m.length / 8) (hc' : c' < m.length / 8) (h : (chunks m)[c]? = (chunks m)[c']?) :
    (chunks (encryptMessage t m k))[c]? = (chunks (encryptMessage t m k))[c']? := by
  apply chunks_encryptMessage_congr
  rw [pad, chunks_append_getElem? m _ hc, chunks_append_getElem? m _ hc', h]

/-! ## Decryption -/

/-- Settles O37: the sequence is the decrypted chunks laid end to end. -/
theorem decryptMessageUnpadsDecryptedChunks : Obligations.DecryptMessageUnpadsDecryptedChunks := by
  intro t mode x k hx
  refine ⟨mapChunks (fun b => decryptBlock t b k) x, ?_, chunks_mapChunks _ x, rfl⟩
  rw [mapChunks_length]
  omega

theorem decryptMessage_nil (t : SboxTable) (mode : UnpadMode) (k : Key) : decryptMessage t mode [] k = none :=
  unpad_nil mode

/-- Decryption undoes encryption in both modes: chunk by chunk, and then the padding (R130). -/
theorem decryptMessage_encryptMessage (t : SboxTable) (mode : UnpadMode) (m : List Byte) (k : Key) :
    decryptMessage t mode (encryptMessage t m k) k = some m := by
  have whole : (pad m).length % 8 = 0 := by rw [pad_length_eq_blocks]; omega
  have blocks : Function.LeftInverse (fun b => decryptBlock t b k) fun b => encryptBlock t b k :=
    fun b => decryptBlock_encryptBlock t b k
  rw [decryptMessage, encryptMessage, mapChunks_mapChunks_of_leftInverse blocks whole, unpad_pad]

end Sys2Proof.Machine
end

