-- ==== Sys2Proof/Proofs/Capacity.lean ====
section
/-! PROOFS. The capacity check (spec/42_message_codec.md R131, 60_exceptions.md R154). A command's outcome is CapacityExceeded exactly
when its need is above the capacity and its key, if it takes one, is accepted. -/

namespace Sys2Proof.Machine

/-! ## What fits -/

theorem fits_eq_true_iff (cap : Option Nat) (n : Nat) : fits cap n = true ↔ ∀ m, cap = some m → n ≤ m := by
  cases cap with
  | none => simp [fits]
  | some c => simp [fits]

theorem fits_eq_false_iff (cap : Option Nat) (n : Nat) : fits cap n = false ↔ ∃ m, cap = some m ∧ m < n := by
  cases cap with
  | none => simp [fits]
  | some c => simp [fits]

theorem capacity_legal {c : Config} {m : Nat} (h : c.maxMsgBytes = some m) : m % 8 = 0 ∧ 16 ≤ m := by
  have legal := c.maxMsg_legal
  simpa [h, maxMsgLegal] using legal

theorem padCapacityExceeded_eq_true_iff {c : Config} {m : Nat} (n : Nat) (h : c.maxMsgBytes = some m) :
    padCapacityExceeded c n = true ↔ m < n + padLen n := by
  simp [padCapacityExceeded, fits, h]

theorem unpadCapacityExceeded_eq_true_iff {c : Config} {m : Nat} (n : Nat) (h : c.maxMsgBytes = some m) :
    unpadCapacityExceeded c n = true ↔ m < n := by
  simp [unpadCapacityExceeded, fits, h]

theorem padCapacityExceeded_eq_false_iff (c : Config) (n : Nat) :
    padCapacityExceeded c n = false ↔ ∀ m, c.maxMsgBytes = some m → n + padLen n ≤ m := by
  rw [padCapacityExceeded, Bool.not_eq_false', fits_eq_true_iff]

theorem unpadCapacityExceeded_eq_false_iff (c : Config) (n : Nat) :
    unpadCapacityExceeded c n = false ↔ ∀ m, c.maxMsgBytes = some m → n ≤ m := by
  rw [unpadCapacityExceeded, Bool.not_eq_false', fits_eq_true_iff]

/-- Padding goes to the next multiple of 8, so it is above a capacity, itself one, as soon as the length reaches it (R131). -/
theorem lt_add_padLen_iff {m : Nat} (n : Nat) (h : m % 8 = 0) : m < n + padLen n ↔ m ≤ n := by
  unfold padLen
  omega

/-! ## How a command completes, by its outcome -/

theorem CmdError.code_injective : Function.Injective CmdError.code := by
  intro e e'
  cases e <;> cases e' <;> decide

theorem exec_of_error {i : Instr} {s : State} {e : CmdError} (h : commandOutcome s i = .error e) :
    exec i s = .next (s.endsWith 0#32 0#32 [] e.code) := by
  rw [exec_eq_complete, h]
  rfl

theorem exec_of_bytes {i : Instr} {s : State} {out : List Byte} (h : commandOutcome s i = .ok (Results.bytes out)) :
    exec i s = .next (s.endsWith 0#32 0#32 out 0#3) := by
  rw [exec_eq_complete, h]
  rfl

/-- The code that a command leaves tells its error. -/
theorem commandOutcome_of_statusCode {i : Instr} {s t : State} {e : CmdError} (h : exec i s = .next t)
    (hcode : t.statusCode = e.code) : commandOutcome s i = .error e := by
  cases (exec_eq_complete i s).symm.trans h
  obtain ⟨r, -, ht⟩ | ⟨e', he', ht⟩ := s.complete_cases _ (commandOutcome s i) rfl
  · rw [ht] at hcode
    exact absurd hcode.symm e.code_range.1
  · rw [ht] at hcode
    rw [he', CmdError.code_injective hcode]

/-! ## Which outcome is CapacityExceeded -/

theorem blockOutcome_ne_capacityExceeded (s : State) (f : Block → Key → Block) :
    blockOutcome s f ≠ .error .capacityExceeded := by
  unfold blockOutcome
  split
  · split <;> simp
  · simp

theorem unpadOutcome_ne_capacityExceeded (o : Option (List Byte)) : unpadOutcome o ≠ .error .capacityExceeded := by
  cases o with
  | none => simp [unpadOutcome]
  | some r => simp [unpadOutcome]

theorem padOutcome_eq_capacityExceeded_iff (s : State) :
    padOutcome s = .error .capacityExceeded ↔ padCapacityExceeded s.cfg s.data.length = true := by
  simp [padOutcome]

theorem unpadDataOutcome_eq_capacityExceeded_iff (s : State) :
    unpadDataOutcome s = .error .capacityExceeded ↔ unpadCapacityExceeded s.cfg s.data.length = true := by
  simp [unpadDataOutcome, unpadOutcome_ne_capacityExceeded]

theorem encMsgOutcome_eq_capacityExceeded_iff (s : State) :
    encMsgOutcome s = .error .capacityExceeded ↔
      s.key.length = 32 ∧ padCapacityExceeded s.cfg s.data.length = true := by
  by_cases hk : s.key.length = 32
  · simp [encMsgOutcome, hk]
  · simp [encMsgOutcome_badKey s hk, hk]

theorem decMsgOutcome_eq_capacityExceeded_iff (s : State) :
    decMsgOutcome s = .error .capacityExceeded ↔
      s.key.length = 32 ∧ unpadCapacityExceeded s.cfg s.data.length = true := by
  by_cases hk : s.key.length = 32
  · obtain ⟨k, hkey⟩ := exists_key s.key hk
    rw [decMsgOutcome_key s k hkey]
    split
    · next hcap => simp [hk, hcap]
    · next hcap => split <;> simp [hcap, unpadOutcome_ne_capacityExceeded]
  · simp [decMsgOutcome_badKey s hk, hk]

/-- The cause of CapacityExceeded, for a command whose need is known. -/
theorem errorApplies_capacityExceeded_iff {i : Instr} {s : State} {n : Nat} (h : capacityNeed s.data.length i = some n) :
    ErrorApplies i s .capacityExceeded ↔ fits s.cfg.maxMsgBytes n = false := by
  simp only [ErrorApplies, h, Option.some.injEq, exists_and_left, exists_eq_left', fits_eq_false_iff]

theorem not_errorApplies_capacityExceeded {i : Instr} {s : State} (h : capacityNeed s.data.length i = none) :
    ¬ ErrorApplies i s .capacityExceeded := by
  simp [ErrorApplies, h]

/-- CapacityExceeded is the outcome exactly where its cause holds and the key check, made first, passes (R131, R154). -/
theorem commandOutcome_eq_capacityExceeded_iff (i : Instr) (s : State) :
    commandOutcome s i = .error .capacityExceeded ↔
      ErrorApplies i s .capacityExceeded ∧ (takesKey i = true → s.key.length = 32) := by
  cases i with
  | subst | rotl sh | round =>
    exact iff_of_false (fun h => by cases h) fun h => not_errorApplies_capacityExceeded rfl h.1
  | encBlock | decBlock =>
    exact iff_of_false (blockOutcome_ne_capacityExceeded s _) fun h => not_errorApplies_capacityExceeded rfl h.1
  | pad =>
    rw [errorApplies_capacityExceeded_iff rfl]
    simpa [commandOutcome, padCapacityExceeded, takesKey] using padOutcome_eq_capacityExceeded_iff s
  | unpad =>
    rw [errorApplies_capacityExceeded_iff rfl]
    simpa [commandOutcome, unpadCapacityExceeded, takesKey] using unpadDataOutcome_eq_capacityExceeded_iff s
  | encMsg =>
    rw [errorApplies_capacityExceeded_iff rfl, and_comm]
    simpa [commandOutcome, padCapacityExceeded, takesKey] using encMsgOutcome_eq_capacityExceeded_iff s
  | decMsg =>
    rw [errorApplies_capacityExceeded_iff rfl, and_comm]
    simpa [commandOutcome, unpadCapacityExceeded, takesKey] using decMsgOutcome_eq_capacityExceeded_iff s

/-- A command whose need is above the capacity, its key accepted if it takes one, ends with CapacityExceeded. -/
theorem exec_capacityExceeded {i : Instr} {s : State} {n m : Nat} (hneed : capacityNeed s.data.length i = some n)
    (hcap : s.cfg.maxMsgBytes = some m) (hlt : m < n) (hkey : takesKey i = true → s.key.length = 32) :
    exec i s = .next (s.endsWith 0#32 0#32 [] 3#3) :=
  exec_of_error ((commandOutcome_eq_capacityExceeded_iff i s).mpr ⟨⟨n, m, hneed, hcap, hlt⟩, hkey⟩)

/-- The commands that check the capacity (R131). -/
theorem messageCommand_of_capacityNeed {i : Instr} {dlen n : Nat} (h : capacityNeed dlen i = some n) :
    i = .pad ∨ i = .unpad ∨ i = .encMsg ∨ i = .decMsg := by
  cases i with
  | subst | rotl sh | round | encBlock | decBlock => cases h
  | pad | unpad | encMsg | decMsg => simp

/-- A command that reports CapacityExceeded is a message command under a bounded capacity. -/
theorem capacityExceeded_reported {i : Instr} {s t : State} (h : exec i s = .next t) (hcode : t.statusCode = 3#3) :
    (∃ m, s.cfg.maxMsgBytes = some m) ∧ (i = .pad ∨ i = .unpad ∨ i = .encMsg ∨ i = .decMsg) := by
  have houtcome := commandOutcome_of_statusCode (e := .capacityExceeded) h hcode
  obtain ⟨⟨n, m, hneed, hcap, -⟩, -⟩ := (commandOutcome_eq_capacityExceeded_iff i s).mp houtcome
  exact ⟨⟨m, hcap⟩, messageCommand_of_capacityNeed hneed⟩

/-- Settles O43: the check is a comparison with a capacity that 8 divides, and CapacityExceeded is reported by it alone. -/
theorem capacityCheck : Obligations.CapacityCheck := by
  refine ⟨fun _ _ => capacity_legal, ?_, ?_, ?_, fun _ _ _ => capacityExceeded_reported, ?_⟩
  · intro c n m hm
    have exceeded := padCapacityExceeded_eq_true_iff n hm
    exact ⟨exceeded, exceeded.trans (lt_add_padLen_iff n (capacity_legal hm).1),
      unpadCapacityExceeded_eq_true_iff n hm⟩
  · intro c n hnone
    simp [padCapacityExceeded, unpadCapacityExceeded, fits, hnone]
  · intro s m hm
    exact ⟨fun hlt => ⟨exec_capacityExceeded rfl hm hlt nofun, fun hk => exec_capacityExceeded rfl hm hlt fun _ => hk⟩,
      fun hlt => ⟨exec_capacityExceeded rfl hm hlt nofun, fun hk => exec_capacityExceeded rfl hm hlt fun _ => hk⟩⟩
  · intro s t hexec hcode
    obtain h | h := hexec
    · simpa using (capacityExceeded_reported h hcode).2
    · simpa using (capacityExceeded_reported h hcode).2

end Sys2Proof.Machine
end

