-- ==== Sys2Proof/Proofs/MessageCommands.lean ====
section
/-! PROOFS. PAD, UNPAD, ENC_MSG and DEC_MSG (spec/42_message_codec.md R125 to R128, R130): how each completes once its checks pass,
and the host's round trip. -/

namespace Sys2Proof.Machine

/-! ## PAD -/

theorem exec_pad_fits {s : State} (h : padCapacityExceeded s.cfg s.data.length = false) :
    exec .pad s = .next (s.endsWith 0#32 0#32 (pad s.data) 0#3) := by
  have houtcome : commandOutcome s .pad = .ok (Results.bytes (pad s.data)) := by simp [commandOutcome, padOutcome, h]
  exact exec_of_bytes houtcome

/-- Settles O38: the two ways PAD completes, and the padding at lengths 0, 7, 8 and 3. -/
theorem padCommandPadsData : Obligations.PadCommandPadsData := by
  refine ⟨by decide, ?_, fun s m hm hlt => exec_capacityExceeded rfl hm hlt nofun, by decide, ?_, ?_, by decide⟩
  · intro s hfits
    exact exec_pad_fits ((padCapacityExceeded_eq_false_iff _ _).mpr hfits)
  · intro d hd
    simp [pad, padLen, hd]
  · intro d hd
    exact ⟨by rw [pad_length_eq_blocks, hd], by simp [pad, padLen, hd]⟩

/-! ## UNPAD -/

theorem commandOutcome_unpad_fits {s : State} (h : unpadCapacityExceeded s.cfg s.data.length = false) :
    commandOutcome s .unpad = unpadOutcome (unpad s.cfg.unpadMode s.data) := by
  simp [commandOutcome, unpadDataOutcome, h]

/-- A command whose outcome is that of an unpadding ends with its bytes, or with InvalidPadding. -/
theorem exec_of_unpadOutcome {i : Instr} {s : State} {o : Option (List Byte)} (h : commandOutcome s i = unpadOutcome o) :
    (∀ r, o = some r → exec i s = .next (s.endsWith 0#32 0#32 r 0#3)) ∧
    (o = none → exec i s = .next (s.endsWith 0#32 0#32 [] 6#3)) := by
  constructor
  · rintro r rfl
    exact exec_of_bytes h
  · rintro rfl
    exact exec_of_error h

/-- The unpadding of the spec's examples is the same in both modes. -/
theorem unpad_corner_cases (mode : UnpadMode) : unpad mode [] = none ∧ unpad mode [0x01] = some [] ∧
    unpad mode (List.replicate 8 8#8) = some [] ∧
    (∀ d : List Byte, unpad mode (d ++ [0x00]) = none) ∧
    unpad mode [0x41, 0x42, 0x43, 0x05, 0x05, 0x05, 0x05, 0x05] = some [0x41, 0x42, 0x43] :=
  ⟨unpad_nil mode, unpad_of_unpadStrict mode (by decide), unpad_pad mode [], unpad_concat_zero mode,
    unpad_pad mode [0x41, 0x42, 0x43]⟩

/-- Settles O39: the three ways UNPAD completes, and the unpadding of the spec's examples. -/
theorem unpadCommandStripsPadding : Obligations.UnpadCommandStripsPadding := by
  refine ⟨by decide, fun s m hm hlt => exec_capacityExceeded rfl hm hlt nofun, ?_, unpad_corner_cases, by decide,
    by decide⟩
  intro s hfits
  exact exec_of_unpadOutcome (commandOutcome_unpad_fits ((unpadCapacityExceeded_eq_false_iff _ _).mpr hfits))

/-! ## ENC_MSG -/

theorem exec_encMsg_fits {s : State} {k : Key} (hk : s.key = k.toList)
    (h : padCapacityExceeded s.cfg s.data.length = false) :
    exec .encMsg s = .next (s.endsWith 0#32 0#32 (encryptMessage s.cfg.sbox s.data k) 0#3) := by
  have houtcome : encMsgOutcome s = .ok (Results.bytes (encryptMessage s.cfg.sbox s.data k)) := by
    simp [encMsgOutcome_key s k hk, h]
  exact exec_of_bytes houtcome

/-- The example of R127: "abc" under the ASCII key of the test vectors. -/
theorem encryptMessage_abc : encryptMessage sboxGk [0x61, 0x62, 0x63]
    #v[0x30, 0x31, 0x32, 0x33, 0x34, 0x35, 0x36, 0x37, 0x38, 0x39, 0x61, 0x62, 0x63, 0x64, 0x65, 0x66,
      0x30, 0x31, 0x32, 0x33, 0x34, 0x35, 0x36, 0x37, 0x38, 0x39, 0x61, 0x62, 0x63, 0x64, 0x65, 0x66] =
    [0x78, 0x64, 0x5a, 0x7b, 0x75, 0x2a, 0xe3, 0x7b] := by decide

/-- Settles O40: the three ways ENC_MSG completes, and the encryption of short messages. -/
theorem encMsgCommandEncryptsMessage : Obligations.EncMsgCommandEncryptsMessage := by
  refine ⟨by decide, ?_, fun s hk => exec_of_error (i := .encMsg) (encMsgOutcome_badKey s hk),
    fun s m hk hm hlt => exec_capacityExceeded rfl hm hlt fun _ => hk, encryptMessage_nil, ?_, encryptMessage_block,
    fun t k m c c' => chunks_encryptMessage_of_message_chunks t k m, encryptMessage_abc⟩
  · intro s k hk hfits
    exact exec_encMsg_fits hk ((padCapacityExceeded_eq_false_iff _ _).mpr hfits)
  · intro t k m hm
    rw [encryptMessage_length, hm, padLen]

/-! ## DEC_MSG -/

theorem commandOutcome_decMsg_unaligned {s : State} {k : Key} (hk : s.key = k.toList)
    (h : unpadCapacityExceeded s.cfg s.data.length = false) (ha : s.data.length % 8 ≠ 0) :
    commandOutcome s .decMsg = .error .invalidBlockAlignment := by
  simp [commandOutcome, decMsgOutcome_key s k hk, h, ha]

theorem commandOutcome_decMsg_aligned {s : State} {k : Key} (hk : s.key = k.toList)
    (h : unpadCapacityExceeded s.cfg s.data.length = false) (ha : s.data.length % 8 = 0) :
    commandOutcome s .decMsg = unpadOutcome (decryptMessage s.cfg.sbox s.cfg.unpadMode s.data k) := by
  simp [commandOutcome, decMsgOutcome_key s k hk, h, ha]

/-- Two blocks fit every capacity (R131). -/
theorem unpadCapacityExceeded_of_le_sixteen (c : Config) {n : Nat} (h : n ≤ 16) : unpadCapacityExceeded c n = false := by
  rw [unpadCapacityExceeded, fits_of_le_sixteen c h, Bool.not_true]

/-- Settles O41: the ways DEC_MSG completes, in the order of its checks; its example is the round trip of R127's. -/
theorem decMsgCommandDecryptsMessage : Obligations.DecMsgCommandDecryptsMessage := by
  refine ⟨by decide, fun s hk => exec_of_error (i := .decMsg) (decMsgOutcome_badKey s hk),
    fun s m hk hm hlt => exec_capacityExceeded rfl hm hlt fun _ => hk, ?_, ?_, ?_, ?_⟩
  · intro s k hk hfits
    have hcap := (unpadCapacityExceeded_eq_false_iff _ _).mpr hfits
    exact ⟨fun ha => exec_of_error (commandOutcome_decMsg_unaligned hk hcap ha),
      fun ha => exec_of_unpadOutcome (commandOutcome_decMsg_aligned hk hcap ha)⟩
  · intro s hk hd
    obtain ⟨k, hkey⟩ := exists_key s.key hk
    have hcap := unpadCapacityExceeded_of_le_sixteen s.cfg (n := s.data.length) (by simp [hd])
    have houtcome := commandOutcome_decMsg_aligned hkey hcap (by simp [hd])
    exact (exec_of_unpadOutcome houtcome).2 (by rw [hd, decryptMessage_nil])
  · intro s hk hd
    obtain ⟨k, hkey⟩ := exists_key s.key hk
    have hcap := unpadCapacityExceeded_of_le_sixteen s.cfg (n := s.data.length) (by omega)
    exact exec_of_error (commandOutcome_decMsg_unaligned hkey hcap (by omega))
  · intro mode
    rw [← encryptMessage_abc, decryptMessage_encryptMessage]

/-! ## The host's round trip -/

/-- The line with ENC_MSG's word, on an idle block that accepts its key and whose padded message fits. -/
theorem runLine_encMsg {s : State} {k : Key} (hp : s.phase = .idle) (hk : s.key = k.toList)
    (h : padCapacityExceeded s.cfg s.data.length = false) : runLine (.command 0x00000008#32) s =
      .next ((s.withCommand 0x00000008#32).endsWith 0#32 0#32 (encryptMessage s.cfg.sbox s.data k) 0#3) :=
  (transact_idle hp (decodeOfEncode .encMsg)).trans (exec_encMsg_fits hk h)

/-- The line with DEC_MSG's word, on an idle block that accepts its key and whose DATA is a ciphertext that fits. -/
theorem runLine_decMsg {s : State} {k : Key} {m : List Byte} (hp : s.phase = .idle) (hk : s.key = k.toList)
    (hd : s.data = encryptMessage s.cfg.sbox m k) (h : padCapacityExceeded s.cfg m.length = false) :
    runLine (.command 0x00000009#32) s = .next ((s.withCommand 0x00000009#32).endsWith 0#32 0#32 m 0#3) := by
  have hlen : s.data.length = m.length + padLen m.length := by rw [hd, encryptMessage_length]
  have hcap : unpadCapacityExceeded s.cfg s.data.length = false := by rwa [hlen]
  have ha : s.data.length % 8 = 0 := by rw [hlen, padLen]; omega
  have hdec : decryptMessage s.cfg.sbox s.cfg.unpadMode s.data k = some m := by
    rw [hd, decryptMessage_encryptMessage]
  have houtcome := commandOutcome_decMsg_aligned (s := s.withCommand 0x00000009#32) hk hcap ha
  exact (transact_idle hp (decodeOfEncode .decMsg)).trans ((exec_of_unpadOutcome houtcome).1 m hdec)

/-- Settles O42: decryption undoes encryption, and DEC_MSG works on the ciphertext that the copy put into DATA. -/
theorem messageRoundTrip : Obligations.MessageRoundTrip := by
  refine ⟨decryptMessage_encryptMessage, ?_⟩
  intro s k hp hk hfits
  have hcap := (padCapacityExceeded_eq_false_iff _ _).mpr hfits
  exact ⟨_, runProgram_copy_between (runLine_encMsg hp hk hcap) rfl (runLine_decMsg rfl hk rfl hcap), rfl, rfl, rfl, rfl,
    rfl, rfl, rfl⟩

end Sys2Proof.Machine
end

