-- ==== Sys2Proof/Proofs/Errors.lean ====
section
/-! PROOFS. Which error a command reports (spec/60_exceptions.md R151 to R159, R165). For each command, the errors that can apply are
said once; the outcome of every command is then the first of those that apply, and results where none does. What each error's
own rule says of a command that reports it follows. -/

namespace Sys2Proof.Machine

/-! ## The errors that can apply to each command -/

/-- A word command has no error (R151). -/
theorem not_errorApplies_of_wordCommand {i : Instr} (hkey : takesKey i = false)
    (hneed : ∀ n, capacityNeed n i = none) (s : State) (e : CmdError) : ¬ ErrorApplies i s e := by
  cases i with
  | subst | rotl sh | round => cases e <;> simp [ErrorApplies, takesKey, capacityNeed]
  | encBlock | decBlock | encMsg | decMsg => cases hkey
  | pad | unpad => cases hneed 0

theorem errorApplies_blockCommand_iff {i : Instr} (hi : i = .encBlock ∨ i = .decBlock) (s : State) (e : CmdError) :
    ErrorApplies i s e ↔
      (e = .invalidKeyLength ∧ s.key.length ≠ 32) ∨ (e = .invalidBlockLength ∧ s.data.length ≠ 8) := by
  obtain rfl | rfl := hi <;> cases e <;> simp [ErrorApplies, takesKey, capacityNeed]

theorem errorApplies_pad_iff (s : State) (e : CmdError) :
    ErrorApplies .pad s e ↔ e = .capacityExceeded ∧ padCapacityExceeded s.cfg s.data.length = true := by
  cases e with
  | capacityExceeded => rw [errorApplies_capacityExceeded_iff rfl]; simp [padCapacityExceeded]
  | _ => simp [ErrorApplies, takesKey]

theorem errorApplies_unpad_iff (s : State) (e : CmdError) :
    ErrorApplies .unpad s e ↔
      (e = .capacityExceeded ∧ unpadCapacityExceeded s.cfg s.data.length = true) ∨
      (e = .invalidPadding ∧ unpad s.cfg.unpadMode s.data = none) := by
  cases e with
  | capacityExceeded => rw [errorApplies_capacityExceeded_iff rfl]; simp [unpadCapacityExceeded]
  | _ => simp [ErrorApplies, takesKey]

theorem errorApplies_encMsg_iff (s : State) (e : CmdError) :
    ErrorApplies .encMsg s e ↔
      (e = .invalidKeyLength ∧ s.key.length ≠ 32) ∨
      (e = .capacityExceeded ∧ padCapacityExceeded s.cfg s.data.length = true) := by
  cases e with
  | capacityExceeded => rw [errorApplies_capacityExceeded_iff rfl]; simp [padCapacityExceeded]
  | _ => simp [ErrorApplies, takesKey]

theorem errorApplies_decMsg_iff (s : State) (e : CmdError) :
    ErrorApplies .decMsg s e ↔
      (e = .invalidKeyLength ∧ s.key.length ≠ 32) ∨
      (e = .capacityExceeded ∧ unpadCapacityExceeded s.cfg s.data.length = true) ∨
      (e = .invalidBlockAlignment ∧ s.data.length % 8 ≠ 0) ∨
      (e = .invalidPadding ∧ s.data.length % 8 = 0 ∧
        ∃ k : Key, s.key = k.toList ∧ decryptMessage s.cfg.sbox s.cfg.unpadMode s.data k = none) := by
  cases e with
  | capacityExceeded => rw [errorApplies_capacityExceeded_iff rfl]; simp [unpadCapacityExceeded]
  | _ => simp [ErrorApplies, takesKey]

/-! ## The outcome is the first error that applies -/

/-- An error that applies and comes before every other that applies (R158). -/
def FirstError (i : Instr) (s : State) (e : CmdError) : Prop :=
  ErrorApplies i s e ∧ ∀ e', ErrorApplies i s e' → e' = e ∨ e.place < e'.place

/-- An outcome that R158 allows: results where no error applies, else the first error that does. -/
def ReportsFirstError (i : Instr) (s : State) : Except CmdError Results → Prop
  | .ok _ => ∀ e, ¬ ErrorApplies i s e
  | .error e => FirstError i s e

/-- The block commands check the key and then the block (R106, R107). -/
theorem blockOutcome_reportsFirstError {i : Instr} (hi : i = .encBlock ∨ i = .decBlock) (s : State)
    (f : Block → Key → Block) : ReportsFirstError i s (blockOutcome s f) := by
  have applies := errorApplies_blockCommand_iff hi s
  by_cases hk : s.key.length = 32
  · by_cases hd : s.data.length = 8
    · obtain ⟨k, hkey⟩ := exists_key s.key hk
      obtain ⟨b, hdata⟩ := exists_block s.data hd
      rw [blockOutcome_ok s f b k hkey hdata]
      simp [ReportsFirstError, applies, hk, hd]
    · rw [blockOutcome_badBlock s f hk hd]
      simp [ReportsFirstError, FirstError, applies, hk, hd]
  · rw [blockOutcome_badKey s f hk]
    simp [ReportsFirstError, FirstError, applies, hk, CmdError.place]

theorem padOutcome_reportsFirstError (s : State) : ReportsFirstError .pad s (padOutcome s) := by
  unfold padOutcome
  split
  · next hcap => simp [ReportsFirstError, FirstError, errorApplies_pad_iff, hcap]
  · next hcap => simp [ReportsFirstError, errorApplies_pad_iff, hcap]

theorem unpadDataOutcome_reportsFirstError (s : State) : ReportsFirstError .unpad s (unpadDataOutcome s) := by
  unfold unpadDataOutcome
  split
  · next hcap => simp [ReportsFirstError, FirstError, errorApplies_unpad_iff, hcap, CmdError.place]
  · next hcap =>
    cases hu : unpad s.cfg.unpadMode s.data with
    | none => simp [unpadOutcome, ReportsFirstError, FirstError, errorApplies_unpad_iff, hcap, hu]
    | some r => simp [unpadOutcome, ReportsFirstError, errorApplies_unpad_iff, hcap, hu]

theorem encMsgOutcome_reportsFirstError (s : State) : ReportsFirstError .encMsg s (encMsgOutcome s) := by
  by_cases hk : s.key.length = 32
  · obtain ⟨k, hkey⟩ := exists_key s.key hk
    rw [encMsgOutcome_key s k hkey]
    split
    · next hcap => simp [ReportsFirstError, FirstError, errorApplies_encMsg_iff, hk, hcap]
    · next hcap => simp [ReportsFirstError, errorApplies_encMsg_iff, hk, hcap]
  · rw [encMsgOutcome_badKey s hk]
    simp [ReportsFirstError, FirstError, errorApplies_encMsg_iff, hk, CmdError.place]

/-- DEC_MSG makes its four checks in the order of R158 (R128). -/
theorem decMsgOutcome_reportsFirstError (s : State) : ReportsFirstError .decMsg s (decMsgOutcome s) := by
  have applies := errorApplies_decMsg_iff s
  by_cases hk : s.key.length = 32
  · obtain ⟨k, hkey⟩ := exists_key s.key hk
    rw [decMsgOutcome_key s k hkey]
    split
    · next hcap => simp [ReportsFirstError, FirstError, applies, hkey, hcap, CmdError.place, or_imp, forall_and]
    · next hcap =>
      split
      · next ha => simp [ReportsFirstError, FirstError, applies, hkey, hcap, ha]
      · next ha =>
        have haligned : s.data.length % 8 = 0 := not_not.mp ha
        cases hdec : decryptMessage s.cfg.sbox s.cfg.unpadMode s.data k with
        | none =>
          simp [unpadOutcome, ReportsFirstError, FirstError, applies, hkey, hcap, haligned, Vector.toList_inj, hdec]
        | some r => simp [unpadOutcome, ReportsFirstError, applies, hkey, hcap, haligned, Vector.toList_inj, hdec]
  · rw [decMsgOutcome_badKey s hk]
    simp [ReportsFirstError, FirstError, applies, hk, CmdError.place, or_imp, forall_and]

/-- The checks of every command stand in the order of R158. -/
theorem commandOutcome_reportsFirstError (i : Instr) (s : State) : ReportsFirstError i s (commandOutcome s i) := by
  cases i with
  | subst | rotl sh | round => exact not_errorApplies_of_wordCommand rfl (fun _ => rfl) s
  | encBlock => exact blockOutcome_reportsFirstError (.inl rfl) s _
  | decBlock => exact blockOutcome_reportsFirstError (.inr rfl) s _
  | pad => exact padOutcome_reportsFirstError s
  | unpad => exact unpadDataOutcome_reportsFirstError s
  | encMsg => exact encMsgOutcome_reportsFirstError s
  | decMsg => exact decMsgOutcome_reportsFirstError s

/-- What the completion of a command is, by the errors that apply to it (R158, R159). -/
theorem complete_commandOutcome_cases (i : Instr) (s : State) :
    ((s.complete (commandOutcome s i)).statusCode = 0#3 ∧ ∀ e, ¬ ErrorApplies i s e) ∨
    ∃ e, FirstError i s e ∧ s.complete (commandOutcome s i) = s.endsWith 0#32 0#32 [] e.code := by
  have reports := commandOutcome_reportsFirstError i s
  cases h : commandOutcome s i with
  | ok r => rw [h] at reports; exact .inl ⟨rfl, reports⟩
  | error e => rw [h] at reports; exact .inr ⟨e, reports, rfl⟩

/-- A step on an illegal word is the error outcome with IllegalCommand (R152). -/
theorem step_of_illegal {s : State} {r : IllegalWord} (hp : s.phase = .inFlight) (hd : decode s.cmd = .error r) :
    step s = .next (s.endsWith 0#32 0#32 [] (CmdError.code .illegalCommand)) := by
  rw [step_of_inFlight hp, issuedOutcome_of_illegal hd]
  rfl

/-- Settles O49: the checks of every command stand in the order of R158. -/
theorem firstApplicableErrorIsReported : Obligations.FirstApplicableErrorIsReported := by
  refine ⟨fun i s => ⟨_, exec_eq_complete i s, ?_⟩, fun s hp ⟨_, hd⟩ => step_of_illegal hp hd⟩
  obtain hok | ⟨e, ⟨happlies, hfirst⟩, hend⟩ := complete_commandOutcome_cases i s
  · exact .inl hok
  · exact .inr ⟨e, happlies, hfirst, hend⟩

/-- Settles O9: a completion is a success or an error outcome. -/
theorem everyStepCompletes : Obligations.EveryStepCompletes := by
  intro s
  obtain ⟨hp, hs⟩ | ⟨-, hs⟩ := step_waits_or_completes s
  · exact ⟨s, hs, fun hp' => absurd hp' hp⟩
  · refine ⟨_, hs, fun _ => ⟨s.complete_phase _, ?_⟩⟩
    obtain ⟨r, -, ht⟩ | ⟨e, -, ht⟩ := s.complete_cases _ (issuedOutcome s) rfl
    · exact .inl (by rw [ht, State.endsWith_statusCode])
    · exact .inr ⟨e, ht⟩

/-! ## The codes a command can report -/

/-- The errors of each command in R151's table, without IllegalCommand, which is no command's. -/
def possibleErrors : Instr → List CmdError
  | .subst | .rotl _ | .round => []
  | .encBlock | .decBlock => [.invalidKeyLength, .invalidBlockLength]
  | .pad => [.capacityExceeded]
  | .unpad => [.capacityExceeded, .invalidPadding]
  | .encMsg => [.invalidKeyLength, .capacityExceeded]
  | .decMsg => [.invalidKeyLength, .capacityExceeded, .invalidBlockAlignment, .invalidPadding]

theorem mem_possibleErrors {i : Instr} {s : State} {e : CmdError} (h : ErrorApplies i s e) : e ∈ possibleErrors i := by
  cases i with
  | subst | rotl sh | round => exact absurd h (not_errorApplies_of_wordCommand rfl (fun _ => rfl) s e)
  | encBlock =>
    obtain ⟨rfl, -⟩ | ⟨rfl, -⟩ := (errorApplies_blockCommand_iff (.inl rfl) s e).mp h <;> simp [possibleErrors]
  | decBlock =>
    obtain ⟨rfl, -⟩ | ⟨rfl, -⟩ := (errorApplies_blockCommand_iff (.inr rfl) s e).mp h <;> simp [possibleErrors]
  | pad =>
    obtain ⟨rfl, -⟩ := (errorApplies_pad_iff s e).mp h
    simp [possibleErrors]
  | unpad => obtain ⟨rfl, -⟩ | ⟨rfl, -⟩ := (errorApplies_unpad_iff s e).mp h <;> simp [possibleErrors]
  | encMsg => obtain ⟨rfl, -⟩ | ⟨rfl, -⟩ := (errorApplies_encMsg_iff s e).mp h <;> simp [possibleErrors]
  | decMsg =>
    obtain ⟨rfl, -⟩ | ⟨rfl, -⟩ | ⟨rfl, -⟩ | ⟨rfl, -⟩ := (errorApplies_decMsg_iff s e).mp h <;> simp [possibleErrors]

/-- The code that a command leaves is that of success or of an error in its row. -/
theorem statusCode_mem_possibleErrors {i : Instr} {s t : State} (h : exec i s = .next t) :
    t.statusCode ∈ codeOk :: (possibleErrors i).map CmdError.code := by
  cases (exec_eq_complete i s).symm.trans h
  obtain ⟨hok, -⟩ | ⟨e, ⟨happlies, -⟩, hend⟩ := complete_commandOutcome_cases i s
  · rw [hok]
    exact List.mem_cons_self
  · rw [hend, State.endsWith_statusCode]
    exact List.mem_cons_of_mem _ (List.mem_map_of_mem (mem_possibleErrors happlies))

/-- Settles O44: a command leaves success or the code of an error that can apply to it. -/
theorem statusCodesByCommand : Obligations.StatusCodesByCommand := by
  refine ⟨rfl, rfl, rfl, rfl, rfl, rfl, ?_, ?_⟩
  · intro i s t h
    have hmem := statusCode_mem_possibleErrors h
    cases i <;> exact hmem
  · intro s t r hp hd hstep
    cases (step_of_illegal hp hd).symm.trans hstep
    rfl

/-! ## Each error's own rule -/

/-- The error that a command reports applies to it. -/
theorem errorApplies_of_statusCode {i : Instr} {s t : State} {e : CmdError} (h : exec i s = .next t)
    (hcode : t.statusCode = e.code) : ErrorApplies i s e := by
  have reports := commandOutcome_reportsFirstError i s
  rw [commandOutcome_of_statusCode h hcode] at reports
  exact reports.1

theorem takesKey_iff (i : Instr) : takesKey i = true ↔ i = .encBlock ∨ i = .decBlock ∨ i = .encMsg ∨ i = .decMsg := by
  cases i <;> simp [takesKey]

/-- A command that takes a key makes the key check first (R153). -/
theorem commandOutcome_badKey {i : Instr} {s : State} (hi : takesKey i = true) (hk : s.key.length ≠ 32) :
    commandOutcome s i = .error .invalidKeyLength := by
  cases i with
  | encBlock | decBlock => exact blockOutcome_badKey s _ hk
  | encMsg => exact encMsgOutcome_badKey s hk
  | decMsg => exact decMsgOutcome_badKey s hk
  | subst | rotl sh | round | pad | unpad => cases hi

/-- Settles O46: the key check comes first, and InvalidKeyLength is reported by it alone. -/
theorem invalidKeyLengthRaised : Obligations.InvalidKeyLengthRaised := by
  refine ⟨fun i s hi hk => exec_of_error (commandOutcome_badKey ((takesKey_iff i).mpr hi) hk), ?_⟩
  intro i s t h hcode
  obtain ⟨hi, hk⟩ := errorApplies_of_statusCode (e := .invalidKeyLength) h hcode
  exact ⟨hk, (takesKey_iff i).mp hi⟩

theorem commandOutcome_badBlock {i : Instr} {s : State} (hi : i = .encBlock ∨ i = .decBlock) (hk : s.key.length = 32)
    (hd : s.data.length ≠ 8) : commandOutcome s i = .error .invalidBlockLength := by
  obtain rfl | rfl := hi
  · exact blockOutcome_badBlock s _ hk hd
  · exact blockOutcome_badBlock s _ hk hd

/-- Settles O47: each length check is the next one after the key and the capacity, and its error is reported by it alone. -/
theorem blockLengthErrorsRaised : Obligations.BlockLengthErrorsRaised := by
  refine ⟨?_, fun i s t => errorApplies_of_statusCode (e := .invalidBlockAlignment),
    fun i s hi hk hd => exec_of_error (commandOutcome_badBlock hi hk hd),
    fun i s t => errorApplies_of_statusCode (e := .invalidBlockLength)⟩
  intro s hk hfits ha
  obtain ⟨k, hkey⟩ := exists_key s.key hk
  have hcap := (unpadCapacityExceeded_eq_false_iff _ _).mpr hfits
  exact exec_of_error (commandOutcome_decMsg_unaligned hkey hcap ha)

/-- Settles O48: once the earlier checks pass, the outcome is that of the unpadding, and InvalidPadding is reported by it alone. -/
theorem invalidPaddingRaised : Obligations.InvalidPaddingRaised := by
  refine ⟨?_, ?_, fun i s t => errorApplies_of_statusCode (e := .invalidPadding)⟩
  · intro s hfits hfails
    have hcap := (unpadCapacityExceeded_eq_false_iff _ _).mpr hfits
    exact (exec_of_unpadOutcome (commandOutcome_unpad_fits hcap)).2 hfails
  · intro s k p hkey hfits ha hlen hchunks hfails
    have hcap := (unpadCapacityExceeded_eq_false_iff _ _).mpr hfits
    have hp : mapChunks (fun b => decryptBlock s.cfg.sbox b k) s.data = p := by
      rw [mapChunks_eq_flatMap_map, ← hchunks, flatMap_chunks p (by omega)]
    have hdec : decryptMessage s.cfg.sbox s.cfg.unpadMode s.data k = none := by rw [decryptMessage, hp, hfails]
    exact (exec_of_unpadOutcome (commandOutcome_decMsg_aligned hkey hcap ha)).2 hdec

end Sys2Proof.Machine
end

