-- ==== Sys2Proof/Proofs/Instances.lean ====
section
/-! PROOFS. Several instances side by side (spec/60_exceptions.md R164): a move of the system is a write of one place of the list
with what the move does to the state that stands there. -/

namespace Sys2Proof.Machine

/-- A move of the system answers next exactly where its target exists and the move alone answers next. -/
theorem systemMove_eq_next_iff (m : SystemMove) (cores cores' : List State) :
    systemMove m cores = some (.next cores') ↔
      ∃ s t, cores[m.target]? = some s ∧ m.apply s = .next t ∧ cores' = cores.set m.target t := by
  cases hs : cores[m.target]? with
  | none => simp [systemMove, hs]
  | some s =>
    cases ha : m.apply s with
    | next t => simp [systemMove, hs, ha, eq_comm]
    | fault r => simp [systemMove, hs, ha]
    | refused r => simp [systemMove, hs, ha]

/-- Settles O58: a write of one place keeps the others, and what is written depends on that place alone. -/
theorem instancesAreIndependent : Obligations.InstancesAreIndependent := by
  intro m cores cores' hmove
  obtain ⟨s, t, hs, ht, rfl⟩ := (systemMove_eq_next_iff m cores cores').mp hmove
  refine ⟨List.length_set, fun k hk => List.getElem?_set_ne hk.symm, ⟨s, t, hs, ht, ?_⟩, ?_⟩
  · rw [List.getElem?_set_self', hs]
    rfl
  · intro others hothers
    refine ⟨others.set m.target t, (systemMove_eq_next_iff m others _).mpr ⟨s, t, hothers.trans hs, ht, rfl⟩, ?_⟩
    rw [List.getElem?_set_self', List.getElem?_set_self', hothers]

end Sys2Proof.Machine
end

