-- ==== Sys2Proof/Proofs/Transaction.lean ====
section
/-! PROOFS. A step with a command in flight, and the transaction of R174 (spec/70_reset_and_hazards.md). Its outcome is that of a
state with the same inputs and nothing else in it, so the results it writes are one function of configuration, inputs and
command word. -/

namespace Sys2Proof.Machine

/-! ## The step and the word in CMD -/

/-- A step on a word that decodes is the meaning of its command (R174). -/
theorem step_of_decode {s : State} {i : Instr} (hp : s.phase = .inFlight) (hd : decode s.cmd = .ok i) :
    step s = exec i s := by
  rw [step_of_inFlight hp, issuedOutcome_of_decode hd, exec_eq_complete]

/-- A command's meaning ends with nothing pending and CMD as it was. -/
theorem exec_phase_cmd {i : Instr} {s t : State} (h : exec i s = .next t) : t.phase = .idle ∧ t.cmd = s.cmd := by
  cases (exec_eq_complete i s).symm.trans h
  exact ⟨s.complete_phase _, s.complete_cmd _⟩

/-- A 32-bit word placed by `withFetchWord` is written to CMD whole. -/
theorem State.withFetchWord_toNat (s : State) (w : Word) : s.withFetchWord 32 w.toNat = s.withCommand w := by
  rw [State.withFetchWord, Nat.mod_eq_of_lt w.isLt, BitVec.ofNat_toNat, BitVec.setWidth_eq]

/-- Settles O6: the word that `withFetchWord` places is the command's own, so it decodes to that command. -/
theorem stepRunsDecodedCommand : Obligations.StepRunsDecodedCommand := by
  refine ⟨fun s i => step_of_decode, fun s t i => exec_phase_cmd, fun s i => ?_⟩
  rw [State.withFetchWord_toNat]
  exact step_of_decode (s.withCommand_phase _) (decodeOfEncode i)

/-! ## The transaction -/

/-- The CODE, Y0, Y1 and OUT that a completion with an outcome writes (R49, R159). -/
def writtenResults : Except CmdError Results → BitVec 3 × Word × Word × List Byte
  | .ok r => (codeOk, r.y0, r.y1, r.out)
  | .error e => (e.code, 0#32, 0#32, [])

theorem State.complete_eq_endsWith (s : State) (o : Except CmdError Results) :
    s.complete o =
      s.endsWith (writtenResults o).2.1 (writtenResults o).2.2.1 (writtenResults o).2.2.2 (writtenResults o).1 := by
  cases o with
  | ok r => rfl
  | error e => rfl

/-- The state in which a command word meets the given inputs, its result registers at their reset values. -/
def State.ofInputs (cfg : Config) (w0 w1 w2 : Word) (key data : List Byte) (cmd : Word) : State :=
  { State.cleared cfg .inFlight with cmd := cmd, w0 := w0, w1 := w1, w2 := w2, key := key, data := data }

theorem State.withCommand_sameInputs_ofInputs (s : State) (w : Word) :
    SameInputs (s.withCommand w) (State.ofInputs s.cfg s.w0 s.w1 s.w2 s.key s.data w) :=
  ⟨rfl, rfl, rfl, rfl, rfl, rfl, rfl⟩

/-- `step(config, inputs, CMD) -> (STATUS, Y0, Y1, OUT)` of R174. -/
def transactionResults (cfg : Config) (w0 w1 w2 : Word) (key data : List Byte) (cmd : Word) :
    BitVec 3 × Word × Word × List Byte :=
  writtenResults (issuedOutcome (State.ofInputs cfg w0 w1 w2 key data cmd))

/-- A transaction on an idle block completes with the outcome of the word written to CMD, legal or not. -/
theorem transact_completes {s : State} (w : Word) (h : s.phase = .idle) :
    transact w s = .next ((s.withCommand w).complete (issuedOutcome (s.withCommand w))) := by
  have issued : hostMove (.issue w) s = .next (s.withCommand w) := writeCmd_idle w h
  simp only [transact, issued, step_of_inFlight (s.withCommand_phase w)]

/-- Settles O8: the outcome of the issued word is that of the state built from its inputs alone. -/
theorem transactionIsFunctionOfConfigInputsCmd : Obligations.TransactionIsFunctionOfConfigInputsCmd := by
  refine ⟨transactionResults, fun s w h => ?_⟩
  rw [transact_completes w h, issuedOutcome_congr (s.withCommand_sameInputs_ofInputs w), State.complete_eq_endsWith]
  rfl

end Sys2Proof.Machine
end

