-- ==== Sys2Proof/Proofs/Reset.lean ====
section
/-! PROOFS. Waiting and reset (spec/70_reset_and_hazards.md R170 to R172): a step without a command in flight waits, and neither a
held reset nor an idle block has one. -/

namespace Sys2Proof.Machine

/-- A step without a command in flight waits (R171, log 5). -/
theorem step_of_not_inFlight {s : State} (h : s.phase ≠ .inFlight) : step s = .next s := by
  obtain ⟨-, hs⟩ | ⟨hp, -⟩ := step_waits_or_completes s
  · exact hs
  · exact absurd hp h

theorem releaseReset_resetHeld {s : State} (h : s.phase = .resetHeld) :
    releaseReset s = { s with phase := .idle } := by simp [releaseReset, h]

theorem writeCmd_resetHeld {s : State} (w : Word) (h : s.phase = .resetHeld) : writeCmd w s = .next s := by
  simp [writeCmd, h]

/-- Settles O7: reset leaves the block idle. -/
theorem stepWaitsWithoutCommand : Obligations.StepWaitsWithoutCommand :=
  ⟨State.cleared_phase Config.built .idle, fun _ => step_of_not_inFlight⟩

/-- Settles O51: reset replaces the whole state but the configuration, the pending command included, so a step waits both before
and after the release. -/
theorem resetAbandonsCommand : Obligations.ResetAbandonsCommand := by
  refine ⟨fun s => ?_, fun s w h => writeCmd_resetHeld w h⟩
  have waits_held : step (assertReset s) = .next (assertReset s) := step_of_not_inFlight (by simp [assertReset])
  have released : hostMove .releaseReset (assertReset s) = .next { assertReset s with phase := .idle } :=
    congrArg Host.Outcome.next (releaseReset_resetHeld (State.cleared_phase s.cfg .resetHeld))
  have waits_released : step { assertReset s with phase := .idle } = .next { assertReset s with phase := .idle } :=
    step_of_not_inFlight (by simp)
  exact ⟨assertReset s, rfl, rfl, rfl, rfl, rfl, rfl, rfl, rfl, rfl, rfl, rfl, rfl, waits_held, released, waits_released⟩

end Sys2Proof.Machine
end
